-- ==== Sys2Proof/Word.lean ====
section
/-! DEFINITION. The word types of the CORE: command words, bytes, scalars, register numbers. -/

namespace Sys2Proof

/-- A command word, 32 bits (spec/30_encoding.md R45). -/
abbrev Word := BitVec 32

/-- A byte of the byte buffer (spec/10_state.md R22). -/
abbrev Byte := BitVec 8

/-- The content of one scalar register: 261 bits, the integer that its nine 29-bit limbs stand for
(spec/10_state.md R11, R12; spec/00_scope.md R7 makes the two views interchangeable). -/
abbrev Scalar := BitVec 261

/-- A scalar register number, 0 to 7 (spec/10_state.md R11). -/
abbrev RegId := Fin 8

end Sys2Proof
end

