-- ==== Sys2Proof/Syntax.lean ====
section
/-! DEFINITION. The thirteen commands of the CORE (spec/30_encoding.md R48) with their operands. -/

namespace Sys2Proof

/-- A command with its operands, as the decoder of spec/30_encoding.md R49 returns it. Registers are numbers 0 to 7;
`LEN` of `fbw` and `K` of `ldc` are the 8-bit IMM field as it stands (R47). The five `ldc` rows of the opcode table are
the values 0 to 4 of `K` (log entry 17). -/
inductive Instr where
  /-- `add sd, sa, sb` (spec/42_addsub.md R80). -/
  | add (rd ra rb : RegId)
  /-- `sub sd, sa, sb` (spec/42_addsub.md R82). -/
  | sub (rd ra rb : RegId)
  /-- `mul sd, sa, sb` (spec/43_multiply.md R85). -/
  | mul (rd ra rb : RegId)
  /-- `sqr sd, sa` (spec/43_multiply.md R86). -/
  | sqr (rd ra : RegId)
  /-- `mmul sd, sa, sb` (spec/43_multiply.md R87). -/
  | mmul (rd ra rb : RegId)
  /-- `msqr sd, sa` (spec/43_multiply.md R88). -/
  | msqr (rd ra : RegId)
  /-- `tomont sd, sa` (spec/43_multiply.md R89). -/
  | tomont (rd ra : RegId)
  /-- `frommont sd, sa` (spec/43_multiply.md R90). -/
  | frommont (rd ra : RegId)
  /-- `fbw sd, LEN` (spec/44_wide_reduction.md R95). -/
  | fbw (rd : RegId) (len : BitVec 8)
  /-- `tob sa` (spec/45_serialization.md R100). -/
  | tob (ra : RegId)
  /-- `fb sd` (spec/45_serialization.md R101). -/
  | fb (rd : RegId)
  /-- `ldc sd, K` (spec/40_constants_compare.md R60). -/
  | ldc (rd : RegId) (k : BitVec 8)
  /-- `eq sa, sb` (spec/40_constants_compare.md R61). -/
  | eq (ra rb : RegId)
  deriving DecidableEq, Repr

/-- The command's mnemonic as spec/30_encoding.md R48 spells it. -/
def Instr.mnemonic : Instr → String
  | .add _ _ _ => "add"
  | .sub _ _ _ => "sub"
  | .mul _ _ _ => "mul"
  | .sqr _ _ => "sqr"
  | .mmul _ _ _ => "mmul"
  | .msqr _ _ => "msqr"
  | .tomont _ _ => "tomont"
  | .frommont _ _ => "frommont"
  | .fbw _ _ => "fbw"
  | .tob _ => "tob"
  | .fb _ => "fb"
  | .ldc _ _ => "ldc"
  | .eq _ _ => "eq"

end Sys2Proof
end

