-- ==== Sys2Proof/WellFormed.lean ====
section
/-! DEFINITION. Which terms of `Instr` are commands of the hardware. -/

namespace Sys2Proof

/-- The one check the types do not make: the constant id of `ldc` is 0 to 4 (spec/30_encoding.md R47, R50 (e)). Register
numbers are below 8 by their type, and every `LEN` 0 to 255 is a legal encoding (R50). -/
def Instr.wellFormed : Instr → Bool
  | .ldc _ k => decide (k.toNat ≤ 4)
  | .add _ _ _ => true
  | .sub _ _ _ => true
  | .mul _ _ _ => true
  | .sqr _ _ => true
  | .mmul _ _ _ => true
  | .msqr _ _ => true
  | .tomont _ _ => true
  | .frommont _ _ => true
  | .fbw _ _ => true
  | .tob _ => true
  | .fb _ => true
  | .eq _ _ => true

end Sys2Proof
end

