-- ==== Sys2Proof/Decode.lean ====
section
/-! DEFINITION. The decoder of spec/30_encoding.md R49, total on every word and on every byte string, then the encoder
written from the format table R46, and the opcode table R48 as data. -/

namespace Sys2Proof

/-! ### The fields of a command word -/

/-- The six fields of a command word at their fixed positions (spec/30_encoding.md R45). -/
structure Fields where
  opc : BitVec 8
  rd : BitVec 4
  ra : BitVec 4
  rb : BitVec 4
  z : BitVec 4
  imm : BitVec 8
  deriving DecidableEq, Repr

/-- `OPC` 31:24, `RD` 23:20, `RA` 19:16, `RB` 15:12, `Z` 11:8, `IMM` 7:0 (spec/30_encoding.md R45). -/
def Fields.ofWord (w : Word) : Fields where
  opc := w.extractLsb' 24 8
  rd := w.extractLsb' 20 4
  ra := w.extractLsb' 16 4
  rb := w.extractLsb' 12 4
  z := w.extractLsb' 8 4
  imm := w.extractLsb' 0 8

/-- The word with these fields, the more significant part on the left (spec/30_encoding.md R46's bit layout). -/
def Fields.toWord (f : Fields) : Word :=
  f.opc ++ f.rd ++ f.ra ++ f.rb ++ f.z ++ f.imm

/-! ### Decoding -/

/-- Why a word is no command: the cases (a) to (e) of spec/30_encoding.md R50. The hardware reports `IllegalCommand` for each
alike and records no reason; the names are the model's (DESIGN CHOICE, log entry 16). -/
inductive Illegal where
  /-- (a) `OPC` is not one of 0x01 to 0x0D. -/
  | unknownOpcode
  /-- (b) `Z` is not zero. -/
  | reservedNotZero
  /-- (c) a register field the format uses is 8 or more. -/
  | noSuchRegister
  /-- (d) a field the format does not use is not zero. -/
  | unusedNotZero
  /-- (e) the command is `ldc` and `K` is 5 or more. -/
  | noSuchConstant
  /-- Fewer than four bytes are left of a byte transport (spec/30_encoding.md R54), so there is no word. -/
  | truncated
  deriving DecidableEq, Repr

/-- The result of decoding: one of the thirteen commands, or `Illegal` (spec/30_encoding.md R49). -/
inductive Decoded where
  | command (i : Instr)
  | illegal (why : Illegal)
  deriving DecidableEq, Repr

/-- The command decoded, if there is one. -/
def Decoded.command? : Decoded → Option Instr
  | .command i => some i
  | .illegal _ => none

/-- The register a used 4-bit field names: its value, when that is below 8 (spec/30_encoding.md R45). -/
def regOfField (f : BitVec 4) : Option RegId :=
  if h : f.toNat < 8 then some ⟨f.toNat, h⟩ else none

/-- Format `R3`: `RD RA RB` used, `IMM` zero (spec/30_encoding.md R46). -/
def decodeR3 (mk : RegId → RegId → RegId → Instr) (f : Fields) : Decoded :=
  match regOfField f.rd, regOfField f.ra, regOfField f.rb with
  | some rd, some ra, some rb => if f.imm = 0 then .command (mk rd ra rb) else .illegal .unusedNotZero
  | _, _, _ => .illegal .noSuchRegister

/-- Format `R2`: `RD RA` used, `RB IMM` zero (spec/30_encoding.md R46). -/
def decodeR2 (mk : RegId → RegId → Instr) (f : Fields) : Decoded :=
  match regOfField f.rd, regOfField f.ra with
  | some rd, some ra => if f.rb = 0 ∧ f.imm = 0 then .command (mk rd ra) else .illegal .unusedNotZero
  | _, _ => .illegal .noSuchRegister

/-- Format `DI`: `RD IMM` used, `RA RB` zero (spec/30_encoding.md R46). -/
def decodeDI (mk : RegId → BitVec 8 → Instr) (f : Fields) : Decoded :=
  match regOfField f.rd with
  | some rd => if f.ra = 0 ∧ f.rb = 0 then .command (mk rd f.imm) else .illegal .unusedNotZero
  | none => .illegal .noSuchRegister

/-- Format `D`: `RD` used, `RA RB IMM` zero (spec/30_encoding.md R46). -/
def decodeD (mk : RegId → Instr) (f : Fields) : Decoded :=
  match regOfField f.rd with
  | some rd => if f.ra = 0 ∧ f.rb = 0 ∧ f.imm = 0 then .command (mk rd) else .illegal .unusedNotZero
  | none => .illegal .noSuchRegister

/-- Format `A`: `RA` used, `RD RB IMM` zero (spec/30_encoding.md R46). -/
def decodeA (mk : RegId → Instr) (f : Fields) : Decoded :=
  match regOfField f.ra with
  | some ra => if f.rd = 0 ∧ f.rb = 0 ∧ f.imm = 0 then .command (mk ra) else .illegal .unusedNotZero
  | none => .illegal .noSuchRegister

/-- Format `C`: `RA RB` used, `RD IMM` zero (spec/30_encoding.md R46). -/
def decodeC (mk : RegId → RegId → Instr) (f : Fields) : Decoded :=
  match regOfField f.ra, regOfField f.rb with
  | some ra, some rb => if f.rd = 0 ∧ f.imm = 0 then .command (mk ra rb) else .illegal .unusedNotZero
  | _, _ => .illegal .noSuchRegister

/-- The case on `OPC` of spec/30_encoding.md R49. -/
def decodeFields (f : Fields) : Decoded :=
  match f.opc with
  | 0x01#8 => decodeR3 .add f
  | 0x02#8 => decodeR3 .sub f
  | 0x03#8 => decodeR3 .mul f
  | 0x04#8 => decodeR2 .sqr f
  | 0x05#8 => decodeR3 .mmul f
  | 0x06#8 => decodeR2 .msqr f
  | 0x07#8 => decodeR2 .tomont f
  | 0x08#8 => decodeR2 .frommont f
  | 0x09#8 => decodeDI .fbw f
  | 0x0A#8 => decodeA .tob f
  | 0x0B#8 => decodeD .fb f
  | 0x0C#8 => if f.imm.toNat ≤ 4 then decodeDI .ldc f else .illegal .noSuchConstant
  | 0x0D#8 => decodeC .eq f
  | _ => .illegal .unknownOpcode

/-- `decode(w)` of spec/30_encoding.md R49: a total function of the word alone. -/
def decode (w : Word) : Decoded :=
  let f := Fields.ofWord w
  if f.z = 0 then decodeFields f else .illegal .reservedNotZero

/-- The word that four bytes of a byte transport carry, byte 0 the least significant (spec/30_encoding.md R54). -/
def wordOfBytes (b0 b1 b2 b3 : Byte) : Word :=
  b3 ++ b2 ++ b1 ++ b0

/-- The four bytes a byte transport carries for a word, byte k = w[8k+7:8k] (spec/30_encoding.md R54). -/
def bytesOfWord (w : Word) : List Byte :=
  [w.extractLsb' 0 8, w.extractLsb' 8 8, w.extractLsb' 16 8, w.extractLsb' 24 8]

/-- Decoding from a byte transport: the first four bytes are one word (there is one length, spec/30_encoding.md R45, R51), the
rest is returned. Total on every byte string. -/
def decodeBytes : List Byte → Decoded × List Byte
  | b0 :: b1 :: b2 :: b3 :: rest => (decode (wordOfBytes b0 b1 b2 b3), rest)
  | short => (.illegal .truncated, short)

/-! ### Encoding -/

/-- The 4-bit field that names a register (spec/30_encoding.md R45). -/
def fieldOfReg (r : RegId) : BitVec 4 := BitVec.ofNat 4 r.val

/-- Format `R3` (spec/30_encoding.md R46). -/
def fieldsR3 (opc : BitVec 8) (rd ra rb : RegId) : Fields :=
  { opc := opc, rd := fieldOfReg rd, ra := fieldOfReg ra, rb := fieldOfReg rb, z := 0, imm := 0 }

/-- Format `R2` (spec/30_encoding.md R46). -/
def fieldsR2 (opc : BitVec 8) (rd ra : RegId) : Fields :=
  { opc := opc, rd := fieldOfReg rd, ra := fieldOfReg ra, rb := 0, z := 0, imm := 0 }

/-- Format `DI` (spec/30_encoding.md R46). -/
def fieldsDI (opc : BitVec 8) (rd : RegId) (imm : BitVec 8) : Fields :=
  { opc := opc, rd := fieldOfReg rd, ra := 0, rb := 0, z := 0, imm := imm }

/-- Format `D` (spec/30_encoding.md R46). -/
def fieldsD (opc : BitVec 8) (rd : RegId) : Fields :=
  { opc := opc, rd := fieldOfReg rd, ra := 0, rb := 0, z := 0, imm := 0 }

/-- Format `A` (spec/30_encoding.md R46). -/
def fieldsA (opc : BitVec 8) (ra : RegId) : Fields :=
  { opc := opc, rd := 0, ra := fieldOfReg ra, rb := 0, z := 0, imm := 0 }

/-- Format `C` (spec/30_encoding.md R46). -/
def fieldsC (opc : BitVec 8) (ra rb : RegId) : Fields :=
  { opc := opc, rd := 0, ra := fieldOfReg ra, rb := fieldOfReg rb, z := 0, imm := 0 }

/-- The fields of each command's word: opcode and format of spec/30_encoding.md R48. -/
def encodeFields : Instr → Fields
  | .add rd ra rb => fieldsR3 0x01 rd ra rb
  | .sub rd ra rb => fieldsR3 0x02 rd ra rb
  | .mul rd ra rb => fieldsR3 0x03 rd ra rb
  | .sqr rd ra => fieldsR2 0x04 rd ra
  | .mmul rd ra rb => fieldsR3 0x05 rd ra rb
  | .msqr rd ra => fieldsR2 0x06 rd ra
  | .tomont rd ra => fieldsR2 0x07 rd ra
  | .frommont rd ra => fieldsR2 0x08 rd ra
  | .fbw rd len => fieldsDI 0x09 rd len
  | .tob ra => fieldsA 0x0A ra
  | .fb rd => fieldsD 0x0B rd
  | .ldc rd k => fieldsDI 0x0C rd k
  | .eq ra rb => fieldsC 0x0D ra rb

/-- The one word of a command (spec/30_encoding.md R49: "every command with given operands has exactly one word"). -/
def encode (i : Instr) : Word := (encodeFields i).toWord

/-! ### The opcode table as data -/

/-- A row of the opcode map: a word is the row's command when `w AND mask = pattern` (spec/30_encoding.md R48). -/
structure TableRow where
  mnemonic : String
  mask : Word
  pattern : Word
  deriving DecidableEq, Repr

/-- The row matches the word. -/
def TableRow.fits (row : TableRow) (w : Word) : Bool := w &&& row.mask == row.pattern

/-- The seventeen rows: twelve commands and `ldc` once for each constant id (spec/30_encoding.md R48). The decoder does not read
this table: it is the spec's second description of the same words. -/
def opcodeTable : List TableRow := [
  ⟨"add", 0xFF888FFF, 0x01000000⟩,
  ⟨"sub", 0xFF888FFF, 0x02000000⟩,
  ⟨"mul", 0xFF888FFF, 0x03000000⟩,
  ⟨"sqr", 0xFF88FFFF, 0x04000000⟩,
  ⟨"mmul", 0xFF888FFF, 0x05000000⟩,
  ⟨"msqr", 0xFF88FFFF, 0x06000000⟩,
  ⟨"tomont", 0xFF88FFFF, 0x07000000⟩,
  ⟨"frommont", 0xFF88FFFF, 0x08000000⟩,
  ⟨"fbw", 0xFF8FFF00, 0x09000000⟩,
  ⟨"tob", 0xFFF8FFFF, 0x0A000000⟩,
  ⟨"fb", 0xFF8FFFFF, 0x0B000000⟩,
  ⟨"ldc", 0xFF8FFFFF, 0x0C000000⟩,
  ⟨"ldc", 0xFF8FFFFF, 0x0C000001⟩,
  ⟨"ldc", 0xFF8FFFFF, 0x0C000002⟩,
  ⟨"ldc", 0xFF8FFFFF, 0x0C000003⟩,
  ⟨"ldc", 0xFF8FFFFF, 0x0C000004⟩,
  ⟨"eq", 0xFFF88FFF, 0x0D000000⟩]

/-! ### A word given as the opcode table numbers its bits -/

/-- The word whose low `nbits` bits are those of `w`, every bit above them zero. -/
def tableWord (nbits w : Nat) : Word := BitVec.ofNat 32 (w % 2 ^ min nbits 32)

/-- What the decoder reads from an instruction whose bits are `w` as spec/opcode_table.json numbers them, laid out as bytes in
the order of spec/30_encoding.md R54 (DEDUCED, log entry 19). -/
def decodeTableWord (nbits w : Nat) : Option Instr :=
  (decodeBytes (bytesOfWord (tableWord nbits w))).1.command?

end Sys2Proof
end

