-- ==== Sys2Proof/Config.lean ====
section
/-! DEFINITION. What is fixed for this hardware, and the values the spec leaves open (no body: nothing can evaluate them). -/

namespace Sys2Proof.Config

/-- `B`, limb width in bits (spec/00_scope.md R5). -/
abbrev limbBits : Nat := 29

/-- `N`, limbs per scalar (spec/00_scope.md R5). -/
abbrev limbCount : Nat := 9

/-- `ACCW`, width of a column accumulator of the multiplier (spec/00_scope.md R5); used at limb level only. -/
abbrev accBits : Nat := 64

/-- `BUFSZ`, bytes of the byte buffer (spec/00_scope.md R5). -/
abbrev bufBytes : Nat := 64

/-- `SCALAR_BYTES`, bytes of an encoded scalar (spec/00_scope.md R5). -/
abbrev scalarBytes : Nat := 32

/-- `WIDE_BYTES`, bytes of a wide-reduction input (spec/00_scope.md R5). -/
abbrev wideBytes : Nat := 64

/-- FREE VALUE: what scalar register `r` holds right after the reset numbered `draw` (spec/10_state.md R24:
"unspecified", spec/93_implementation_defined.md U1: any value). DESIGN CHOICE, log entry 1. -/
opaque resetScalar (draw : Nat) (r : RegId) : Scalar

/-- FREE VALUE: what buffer byte `j` holds after the reset numbered `draw`, until it is written
(spec/10_state.md R24, spec/93_implementation_defined.md U1). DESIGN CHOICE, log entry 2. -/
opaque resetByte (draw : Nat) (j : Nat) : Byte

/-- `LAT(w)`, the open latency parameter: a total function of the command word alone (spec/00_scope.md R5,
spec/70_reset_and_hazards.md R128). No rule depends on its value and the machine does not read it. DESIGN CHOICE, log entry 14. -/
opaque latency (w : Word) : Nat

end Sys2Proof.Config
end

