-- ==== Sys2Proof/Machine/State.lean ====
section
/-! DEFINITION. What the CORE holds (spec/10_state.md R10), as plain data; the reasons a step can stop; the state after reset. -/

namespace Sys2Proof.Machine

/-- `STATUS.CC`, the completion code of the most recent command: three values, code 3 is never produced
(spec/10_state.md R19, spec/93_implementation_defined.md U8). -/
inductive CompletionCode where
  /-- Code 0: the command was carried out (spec/60_exceptions.md R106). -/
  | ok
  /-- Code 1: `fbw` with `LEN` other than 64 (spec/60_exceptions.md R107). -/
  | lengthMismatch
  /-- Code 2: a word the decoder rejects (spec/60_exceptions.md R109). -/
  | illegalCommand
  deriving DecidableEq, Repr

/-- One access of the host register window, as the host presents it: an offset from the block's base, a width in bits and, for a
write, the value driven, whose low `width` bits are meant (spec/20_memory.md R32; the form is a DESIGN CHOICE, log entry 9). -/
inductive WindowAccess where
  | read (offset width : Nat)
  | write (offset width value : Nat)
  deriving DecidableEq, Repr

/-- What reaches the CORE from outside: an access of its window, or the reset event (spec/70_reset_and_hazards.md R120). -/
inductive Input where
  | access (a : WindowAccess)
  | reset
  deriving DecidableEq, Repr

/-- What a host operation gives back (spec/20_memory.md R33; for `H_ISSUE` the completion code, spec/60_exceptions.md R105). -/
inductive HostReply where
  /-- `H_ISSUE` returned with this completion code. -/
  | issued (code : CompletionCode)
  /-- `H_RSTATUS` returned this `STATUS` word. -/
  | status (w : Word)
  /-- `H_RBUF` returned this byte. -/
  | byte (b : Byte)
  /-- `H_WBUF` returned; it gives back nothing. -/
  | written
  deriving DecidableEq, Repr

/-- Everything the CORE holds, and beside it the model's own three fields (`draw`, `port`, `reply`). -/
structure State where
  /-- `S[0..7]`, the scalar registers s0 to s7 (spec/10_state.md R11). -/
  regs : Vector Scalar 8
  /-- `BUF`, as the bytes written since reset: addresses strictly rising, below 64. An address not listed reads as the free value
  `Config.resetByte draw` of it (spec/10_state.md R22, R24; log entry 2). -/
  buf : List Host.Cell
  /-- `STATUS.CC` (spec/10_state.md R19, R20). -/
  cc : CompletionCode
  /-- `STATUS.EQ` (spec/10_state.md R19, R21). -/
  eqFlag : Bool
  /-- MODEL'S OWN: the number of reset events so far; the free values are applied to it (log entry 3). -/
  draw : Nat
  /-- MODEL'S OWN, the environment: what has been presented and not yet taken, in order (spec/20_memory.md R36; log entry 4). -/
  port : List Input
  /-- MODEL'S OWN, the environment: what the host operation completed last gave back (spec/20_memory.md R33; log entry 5). -/
  reply : Option HostReply
  deriving DecidableEq, Repr

/-- Faults that stop the machine: there are none. A command that cannot be carried out ends with a completion code and the machine
goes on (spec/60_exceptions.md R105, R106, R108). Nobody raises one; that is safe. -/
inductive Fault
  deriving DecidableEq, Repr

/-- Reasons a step gives no next state. -/
inductive Refusal where
  /-- Raised by an arm of `exec` for an instruction without a meaning yet; no arm does. Safe: nothing is claimed. -/
  | notModelled (mnemonic : String)
  /-- Raised by `step` for a host access that is not in the table of spec/20_memory.md R32: "the hardware's behaviour is not defined
  and a model refuses them". Safe: nothing is claimed. Log entry 8. -/
  | outsideWindow
  deriving DecidableEq, Repr

/-- The state after the reset event numbered `draw`: `STATUS` zero, registers and buffer unspecified, that is: the free values
(spec/70_reset_and_hazards.md R121, spec/93_implementation_defined.md U1; DESIGN CHOICE, log entries 1 to 3). -/
def State.afterReset (draw : Nat) : State where
  regs := #v[
    Config.resetScalar draw 0, Config.resetScalar draw 1, Config.resetScalar draw 2, Config.resetScalar draw 3,
    Config.resetScalar draw 4, Config.resetScalar draw 5, Config.resetScalar draw 6, Config.resetScalar draw 7]
  buf := []
  cc := .ok
  eqFlag := false
  draw := draw
  port := []
  reply := none

/-- The machine right after reset: nothing presented at the port, the free values drawn for the first time. -/
def State.reset : State := State.afterReset 0

end Sys2Proof.Machine
end

