-- ==== Sys2Proof/Machine/Rom.lean ====
section
/-! DEFINITION. The constant ROM (spec/10_state.md R15): hardwired, never written, so no field of State. -/

namespace Sys2Proof.Machine

/-- Constant 1, `L`, the modulus (spec/10_state.md R15, spec/00_scope.md R5). -/
def Const.L : Nat := 2 ^ 252 + 27742317777372353535851937790883648493

/-- Constant 2, `R` = 2^261 mod L (spec/10_state.md R15). -/
def Const.R : Nat := 0x0fffffffffffffffffffffffffffffd656eb3c98b3bdf026334c2e60714df9ed

/-- Constant 3, `RR` = R² mod L (spec/10_state.md R15). -/
def Const.RR : Nat := 0x05046df0c268f73bb1cf485fd6f9972d781a1f9babd635fcf7c28362eb5f9d12

/-- Constant 4, `LFACTOR` = -L⁻¹ mod 2^29 (spec/10_state.md R15). -/
def Const.LFACTOR : Nat := 0x12547e1b

end Sys2Proof.Machine
end

