-- ==== Sys2Proof/Machine/Datapath.lean ====
section
/-! DEFINITION. The datapath functions at integer level, which is normative for the value (spec/41_datapath_primitives.md), and
the value each arithmetic command stores. All quantities are unsigned (R74). -/

namespace Sys2Proof.Machine

/-- `SchoolbookMul(a, b)`: the exact product (spec/41_datapath_primitives.md R66). -/
def schoolbookMul (a b : Nat) : Nat := a * b

/-- `CondSubL(t)`: L is subtracted once when t ≥ L (spec/41_datapath_primitives.md R71). -/
def condSubL (t : Nat) : Nat := if Const.L ≤ t then t - Const.L else t

/-- `m[i]` of one reduction round, from the accumulator's lowest limb (spec/41_datapath_primitives.md R68). -/
def redcMultiplier (t : Nat) : Nat := (t % 2 ^ 29 * Const.LFACTOR) % 2 ^ 29

/-- One reduction round: add the multiple of L that clears the lowest limb, then shift down by one limb
(spec/41_datapath_primitives.md R68). -/
def redcRound (t : Nat) : Nat := (t + redcMultiplier t * Const.L) / 2 ^ 29

/-- The accumulator after the first `n` reduction rounds. -/
def redcRounds : Nat → Nat → Nat
  | 0, p => p
  | n + 1, p => redcRound (redcRounds n p)

/-- `REDC(P)`: nine rounds, least significant limb first, then one conditional subtraction (spec/41_datapath_primitives.md R68). -/
def redc (p : Nat) : Nat := condSubL (redcRounds Config.limbCount p)

/-- What `add` stores: one conditional subtraction on the full 262-bit sum, then the low 261 bits (spec/42_addsub.md R80). -/
def addValue (a b : Nat) : Nat := condSubL (a + b) % 2 ^ 261

/-- What `sub` stores: L added once on borrow, then the low 261 bits (spec/42_addsub.md R82). -/
def subValue (a b : Nat) : Nat :=
  (((a : Int) - (b : Int) + (if a < b then (Const.L : Int) else 0)) % 2 ^ 261).toNat

/-- What `mmul` stores (spec/43_multiply.md R87). -/
def mmulValue (a b : Nat) : Nat := redc (schoolbookMul a b)

/-- What `mul` stores: the product reduced, multiplied by RR and reduced again (spec/43_multiply.md R85). -/
def mulValue (a b : Nat) : Nat := redc (schoolbookMul (redc (schoolbookMul a b)) Const.RR)

/-- What `tomont` stores (spec/43_multiply.md R89). -/
def tomontValue (x : Nat) : Nat := redc (schoolbookMul x Const.RR)

/-- What `frommont` stores: the register zero-extended to double width, reduced (spec/43_multiply.md R90). -/
def frommontValue (y : Nat) : Nat := redc y

/-- What `fbw` stores: the canonical residue, whatever the algorithm (spec/44_wide_reduction.md R95). -/
def wideValue (w : Nat) : Nat := w % Const.L

end Sys2Proof.Machine
end

