-- ==== Sys2Proof/Machine/Ops.lean ====
section
/-! DEFINITION. The named operations over the buffer, the registers and the completion code: everything a meaning does to the
state goes through these. -/

namespace Sys2Proof.Machine

/-! ### The byte buffer as a list of cells -/

/-- The byte listed at an address, if one is. -/
def Memory.lookup : List Host.Cell → Nat → Option Byte
  | [], _ => none
  | c :: m, a => if c.1 = a then some c.2 else Memory.lookup m a

/-- The list with this byte at this address; rising addresses stay rising. -/
def Memory.insert (m : List Host.Cell) (a : Nat) (b : Byte) : List Host.Cell :=
  match m with
  | [] => [(a, b)]
  | c :: m => if a < c.1 then (a, b) :: c :: m else if a = c.1 then (a, b) :: m else c :: Memory.insert m a b

/-- The canonical form: addresses strictly rising, every one an address of the buffer (spec/20_memory.md R30: 0 to 63). What an
unlisted address reads as is no written value but a free one, so a listed byte is never redundant (log entry 2). -/
abbrev Memory.wf (m : List Host.Cell) : Prop :=
  m.Pairwise (fun c d => c.1 < d.1) ∧ ∀ c ∈ m, c.1 < Config.bufBytes

/-- `BUF[a]`: the byte written there since reset, else what the location has held since reset, a free value
(spec/70_reset_and_hazards.md R123, spec/93_implementation_defined.md U1). -/
def State.readByte (s : State) (a : Nat) : Byte :=
  (Memory.lookup s.buf a).getD (Config.resetByte s.draw a)

/-- `BUF[a] <- b`. Every caller's address is below 64. -/
def State.writeByte (s : State) (a : Nat) (b : Byte) : State :=
  { s with buf := Memory.insert s.buf a b }

/-- `MemRead(addr, n)`: n bytes read little-endian as one integer (spec/00_scope.md R8, spec/20_memory.md R31). -/
def State.memRead (s : State) (addr : Nat) : Nat → Nat
  | 0 => 0
  | n + 1 => (s.readByte addr).toNat + 2 ^ 8 * s.memRead (addr + 1) n

/-- `MemWrite(addr, n, v)`: byte addr + j receives bits 8j+7..8j of v (spec/00_scope.md R8, spec/20_memory.md R31). -/
def State.memWrite (s : State) (addr : Nat) (n v : Nat) : State :=
  match n with
  | 0 => s
  | n + 1 => (s.writeByte addr (BitVec.ofNat 8 v)).memWrite (addr + 1) n (v / 2 ^ 8)

/-! ### Scalar registers and status -/

/-- `S[r]` as an integer, below 2^261 (spec/00_scope.md R8). -/
def State.readReg (s : State) (r : RegId) : Nat := (s.regs[r]).toNat

/-- `S[r] <- v`: the register's 261 bits (spec/00_scope.md R8, spec/10_state.md R12). -/
def State.writeReg (s : State) (r : RegId) (v : Nat) : State :=
  { s with regs := s.regs.set r (BitVec.ofNat 261 v) }

/-- `STATUS.EQ <- b` (spec/10_state.md R21). -/
def State.setEq (s : State) (b : Bool) : State := { s with eqFlag := b }

/-- `STATUS.CC <- code` (spec/10_state.md R20). -/
def State.setCC (s : State) (code : CompletionCode) : State := { s with cc := code }

/-! ### Ending a command -/

/-- `complete`: the command ends with code OK (spec/00_scope.md R8). -/
def complete (s : State) : Host.Outcome State Fault Refusal := .next (s.setCC .ok)

/-- `raise LengthMismatch`, `raise IllegalCommand`: the command ends with that code and no other effect (spec/60_exceptions.md
R108). This is the hardware's only exception mechanism: nothing is saved, no mode or counter changes (R113), and there is nothing
to return from (R114). -/
def raise (code : CompletionCode) (s : State) : Host.Outcome State Fault Refusal := .next (s.setCC code)

end Sys2Proof.Machine
end

