-- ==== Sys2Proof/Machine/Operands.lean ====
section
/-! DEFINITION. The operand forms (spec/30_encoding.md R47): a scalar register, `LEN`, a constant id `K`, and the implicit
buffer blocks of `fb`, `fbw` and `tob` (spec/20_memory.md R30, R35). There is no other form. -/

namespace Sys2Proof.Machine

/-- A scalar register operand: the 261-bit content of the register as an integer. -/
def State.scalar (s : State) (r : RegId) : Nat := s.readReg r

/-- `LEN` of `fbw`: the unsigned 8-bit IMM as it stands. -/
def lenOperand (imm : BitVec 8) : Nat := imm.toNat

/-- `K` of `ldc`: 0 ZERO, 1 L, 2 R, 3 RR, 4 LFACTOR; no constant has another id (spec/10_state.md R15). -/
def constOperand (imm : BitVec 8) : Option Nat :=
  match imm with
  | 0#8 => some 0
  | 1#8 => some Const.L
  | 2#8 => some Const.R
  | 3#8 => some Const.RR
  | 4#8 => some Const.LFACTOR
  | _ => none

/-- The implicit source of `fb`: BUF[0..31] as an integer below 2^256. -/
def State.scalarBlock (s : State) : Nat := s.memRead 0 Config.scalarBytes

/-- The implicit source of `fbw`: BUF[0..63] as an integer below 2^512. -/
def State.wideBlock (s : State) : Nat := s.memRead 0 Config.wideBytes

/-- The implicit destination of `tob`: BUF[0..31] receives the integer's low 256 bits. -/
def State.writeScalarBlock (s : State) (v : Nat) : State := s.memWrite 0 Config.scalarBytes (v % 2 ^ 256)

end Sys2Proof.Machine
end

