-- ==== Sys2Proof/Machine/AddSub.lean ====
section
/-! DEFINITION. The limb adder/subtractor's commands: `add`, `sub` (spec/42_addsub.md). -/

namespace Sys2Proof.Machine

/-- `add sd, sa, sb` (spec/42_addsub.md R80). -/
def execAdd (rd ra rb : RegId) (s : State) : Host.Outcome State Fault Refusal :=
  complete (s.writeReg rd (addValue (s.scalar ra) (s.scalar rb)))

/-- `sub sd, sa, sb`, S[ra] the minuend (spec/42_addsub.md R82). -/
def execSub (rd ra rb : RegId) (s : State) : Host.Outcome State Fault Refusal :=
  complete (s.writeReg rd (subValue (s.scalar ra) (s.scalar rb)))

end Sys2Proof.Machine
end

