-- ==== Sys2Proof/Machine/Flags.lean ====
section
/-! DEFINITION. The status register (spec/10_state.md R18 to R21): the equality flag's computation, and the 32-bit word the host
reads. There is no carry, borrow, zero, overflow or sign flag (R21). -/

namespace Sys2Proof.Machine

/-- `[ a == b ]`, equality of the two integers (spec/40_constants_compare.md R61: of representations, not of residues). -/
def equalFlag (a b : Nat) : Bool := decide (a = b)

/-- The 2-bit code of a completion code (spec/60_exceptions.md R106). -/
def CompletionCode.bits : CompletionCode → BitVec 2
  | .ok => 0
  | .lengthMismatch => 1
  | .illegalCommand => 2

/-- `STATUS` as the host reads it: CC in bits 1:0, EQ in bit 2, bits 31:3 zero (spec/10_state.md R19). -/
def State.statusWord (s : State) : Word :=
  (0 : BitVec 29) ++ BitVec.ofBool s.eqFlag ++ s.cc.bits

end Sys2Proof.Machine
end

