-- ==== Sys2Proof/Machine/ConstantsCompare.lean ====
section
/-! DEFINITION. `ldc` and `eq` (spec/40_constants_compare.md). -/

namespace Sys2Proof.Machine

/-- `ldc sd, K` (spec/40_constants_compare.md R60). A term with another constant id has no word the decoder accepts; it ends as
such a word does (spec/30_encoding.md R50 (e); DEDUCED, log entry 12). -/
def execLdc (rd : RegId) (k : BitVec 8) (s : State) : Host.Outcome State Fault Refusal :=
  match constOperand k with
  | some v => complete (s.writeReg rd v)
  | none => raise .illegalCommand s

/-- `eq sa, sb` (spec/40_constants_compare.md R61). -/
def execEq (ra rb : RegId) (s : State) : Host.Outcome State Fault Refusal :=
  complete (s.setEq (equalFlag (s.scalar ra) (s.scalar rb)))

end Sys2Proof.Machine
end

