-- ==== Sys2Proof/Machine/Multiply.lean ====
section
/-! DEFINITION. The Montgomery multiplier's commands (spec/43_multiply.md). The hardware does not know an operand's domain
(spec/10_state.md R14): each computes the same function whatever its operands mean. -/

namespace Sys2Proof.Machine

/-- `mul sd, sa, sb` (spec/43_multiply.md R85). -/
def execMul (rd ra rb : RegId) (s : State) : Host.Outcome State Fault Refusal :=
  complete (s.writeReg rd (mulValue (s.scalar ra) (s.scalar rb)))

/-- `sqr sd, sa` (spec/43_multiply.md R86; the product is a·a, spec/41_datapath_primitives.md R67). -/
def execSqr (rd ra : RegId) (s : State) : Host.Outcome State Fault Refusal :=
  complete (s.writeReg rd (mulValue (s.scalar ra) (s.scalar ra)))

/-- `mmul sd, sa, sb` (spec/43_multiply.md R87). -/
def execMmul (rd ra rb : RegId) (s : State) : Host.Outcome State Fault Refusal :=
  complete (s.writeReg rd (mmulValue (s.scalar ra) (s.scalar rb)))

/-- `msqr sd, sa` (spec/43_multiply.md R88). -/
def execMsqr (rd ra : RegId) (s : State) : Host.Outcome State Fault Refusal :=
  complete (s.writeReg rd (mmulValue (s.scalar ra) (s.scalar ra)))

/-- `tomont sd, sa` (spec/43_multiply.md R89). -/
def execTomont (rd ra : RegId) (s : State) : Host.Outcome State Fault Refusal :=
  complete (s.writeReg rd (tomontValue (s.scalar ra)))

/-- `frommont sd, sa` (spec/43_multiply.md R90). -/
def execFrommont (rd ra : RegId) (s : State) : Host.Outcome State Fault Refusal :=
  complete (s.writeReg rd (frommontValue (s.scalar ra)))

end Sys2Proof.Machine
end

