-- ==== Sys2Proof/Machine/Serialization.lean ====
section
/-! DEFINITION. The serializer/deserializer's commands: `tob`, `fb`, no reduction and no check (spec/45_serialization.md). -/

namespace Sys2Proof.Machine

/-- `tob sa`: BUF[0..31] receives the low 256 bits, BUF[32..63] stay (spec/45_serialization.md R100). -/
def execTob (ra : RegId) (s : State) : Host.Outcome State Fault Refusal :=
  complete (s.writeScalarBlock (s.scalar ra))

/-- `fb sd`: the 256-bit integer of BUF[0..31], not reduced (spec/45_serialization.md R101). -/
def execFb (rd : RegId) (s : State) : Host.Outcome State Fault Refusal :=
  complete (s.writeReg rd s.scalarBlock)

end Sys2Proof.Machine
end

