-- ==== Sys2Proof/Machine/WideReduction.lean ====
section
/-! DEFINITION. The wide-reduction engine's command: `fbw`, the only one that can fail in execution (spec/44_wide_reduction.md). -/

namespace Sys2Proof.Machine

/-- `fbw sd, LEN`: the length check comes first and does not depend on the buffer (spec/44_wide_reduction.md R95,
spec/60_exceptions.md R107, R112). -/
def execFbw (rd : RegId) (len : BitVec 8) (s : State) : Host.Outcome State Fault Refusal :=
  if lenOperand len = Config.wideBytes then complete (s.writeReg rd (wideValue s.wideBlock))
  else raise .lengthMismatch s

end Sys2Proof.Machine
end

