-- ==== Sys2Proof/Machine/Dispatch.lean ====
section
/-! DEFINITION. One arm per command: the meaning it calls. -/

namespace Sys2Proof.Machine

def exec (i : Instr) (s : State) : Host.Outcome State Fault Refusal :=
  match i with
  | .add rd ra rb => Sys2Proof.Machine.execAdd rd ra rb s
  | .sub rd ra rb => Sys2Proof.Machine.execSub rd ra rb s
  | .mul rd ra rb => Sys2Proof.Machine.execMul rd ra rb s
  | .sqr rd ra => Sys2Proof.Machine.execSqr rd ra s
  | .mmul rd ra rb => Sys2Proof.Machine.execMmul rd ra rb s
  | .msqr rd ra => Sys2Proof.Machine.execMsqr rd ra s
  | .tomont rd ra => Sys2Proof.Machine.execTomont rd ra s
  | .frommont rd ra => Sys2Proof.Machine.execFrommont rd ra s
  | .fbw rd len => Sys2Proof.Machine.execFbw rd len s
  | .tob ra => Sys2Proof.Machine.execTob ra s
  | .fb rd => Sys2Proof.Machine.execFb rd s
  | .ldc rd k => Sys2Proof.Machine.execLdc rd k s
  | .eq ra rb => Sys2Proof.Machine.execEq ra rb s

end Sys2Proof.Machine
end

