-- ==== Sys2Proof/Machine/HostPort.lean ====
section
/-! DEFINITION. The host port: the window of spec/20_memory.md R32, the four operations of R33, and what each does. -/

namespace Sys2Proof.Machine

/-- The four things the host can do to a CORE instance (spec/20_memory.md R33). -/
inductive HostOp where
  /-- `H_ISSUE(w)`. -/
  | issue (w : Word)
  /-- `H_RSTATUS()`. -/
  | rstatus
  /-- `H_RBUF(j)`. -/
  | rbuf (j : Fin 64)
  /-- `H_WBUF(j, v)`. -/
  | wbuf (j : Fin 64) (v : Byte)
  deriving DecidableEq, Repr

/-- Offset of `CMD` (spec/20_memory.md R32). -/
def cmdOffset : Nat := 0x00

/-- Offset of `STATUS` (spec/20_memory.md R32). -/
def statusOffset : Nat := 0x04

/-- Offset of `BUF[0]` (spec/20_memory.md R32). -/
def bufOffset : Nat := 0x40

/-- The window access that a host operation is (spec/20_memory.md R32). -/
def HostOp.access : HostOp → WindowAccess
  | .issue w => .write cmdOffset 32 w.toNat
  | .rstatus => .read statusOffset 32
  | .rbuf j => .read (bufOffset + j.val) 8
  | .wbuf j v => .write (bufOffset + j.val) 8 v.toNat

/-- The byte of the buffer that a window offset names, if it names one (spec/20_memory.md R32: 0x40 + j, 0 ≤ j ≤ 63). -/
def bufIndex (offset : Nat) : Option (Fin 64) :=
  if h : bufOffset ≤ offset ∧ offset - bufOffset < 64 then some ⟨offset - bufOffset, h.2⟩ else none

/-- The host operation that a window access is, if it is one: the offsets, widths and directions of spec/20_memory.md R32 and no
others. -/
def WindowAccess.hostOp? : WindowAccess → Option HostOp
  | .read offset width =>
    if width = 32 then (if offset = statusOffset then some .rstatus else none)
    else if width = 8 then (bufIndex offset).map .rbuf
    else none
  | .write offset width value =>
    if width = 32 then (if offset = cmdOffset then some (.issue (BitVec.ofNat 32 value)) else none)
    else if width = 8 then (bufIndex offset).map fun j => .wbuf j (BitVec.ofNat 8 value)
    else none

/-- The state once the port's oldest entry has been taken (spec/20_memory.md R36: one at a time, in order). -/
def State.withPort (s : State) (rest : List Input) : State := { s with port := rest }

/-- The state with what the operation gives back. -/
def State.withReply (s : State) (r : HostReply) : State := { s with reply := some r }

/-- `H_RSTATUS()` gives back the STATUS word and changes nothing (spec/20_memory.md R33, R35). -/
def hostReadStatus (s : State) : State := s.withReply (.status s.statusWord)

/-- `H_RBUF(j)` gives back BUF[j] and changes nothing (spec/20_memory.md R33, R35). -/
def hostReadByte (j : Fin 64) (s : State) : State := s.withReply (.byte (s.readByte j.val))

/-- `H_WBUF(j, v)`: BUF[j] <- v, nothing else changes (spec/20_memory.md R33). -/
def hostWriteByte (j : Fin 64) (v : Byte) (s : State) : State := (s.writeByte j.val v).withReply .written

/-- `H_ISSUE` returns when the command has completed, with its code (spec/20_memory.md R33, spec/60_exceptions.md R105). -/
def afterCommand (o : Host.Outcome State Fault Refusal) : Host.Outcome State Fault Refusal :=
  match o with
  | .next s => .next (s.withReply (.issued s.cc))
  | .fault f => .fault f
  | .refused r => .refused r

/-- A word the decoder rejects: `raise IllegalCommand` (spec/30_encoding.md R49, spec/60_exceptions.md R109). -/
def issueIllegal (s : State) : Host.Outcome State Fault Refusal := afterCommand (raise .illegalCommand s)

/-- The reset event: everything the CORE holds is as after reset, with the free values drawn anew; what is presented behind it
waits on (spec/70_reset_and_hazards.md R120, R121; log entries 3 and 10). -/
def resetEvent (s : State) (rest : List Input) : State := (State.afterReset (s.draw + 1)).withPort rest

/-- Nothing presented: the block is idle and keeps all its state (spec/60_exceptions.md R119; DEDUCED, log entry 6). -/
def idle (s : State) : State := s

end Sys2Proof.Machine
end

