-- ==== Sys2Proof/Machine/Step.lean ====
section
/-! DEFINITION. One step: the port's oldest entry is taken and carried out to completion (spec/20_memory.md R36). There is no
program counter and no fetch (spec/10_state.md R17, spec/20_memory.md R38). -/

namespace Sys2Proof.Machine

/-- `H_ISSUE(w)`: the word is decoded and executed, and the operation returns with the completion code
(spec/20_memory.md R33, spec/30_encoding.md R49). -/
def issueWord (w : Word) (s : State) : Host.Outcome State Fault Refusal :=
  match decode w with
  | .command i => afterCommand (exec i s)
  | .illegal _ => issueIllegal s

/-- One of the four host operations (spec/20_memory.md R33). -/
def hostOperation (op : HostOp) (s : State) : Host.Outcome State Fault Refusal :=
  match op with
  | .issue w => issueWord w s
  | .rstatus => .next (hostReadStatus s)
  | .rbuf j => .next (hostReadByte j s)
  | .wbuf j v => .next (hostWriteByte j v s)

/-- One step of the machine. An access outside the window is refused (spec/20_memory.md R32). -/
def step (s : State) : Host.Outcome State Fault Refusal :=
  match s.port with
  | [] => .next (idle s)
  | .reset :: rest => .next (resetEvent s rest)
  | .access a :: rest =>
    match a.hostOp? with
    | some op => hostOperation op (s.withPort rest)
    | none => .refused .outsideWindow

/-- The state with a command word, given as spec/opcode_table.json numbers its bits, presented at the port as the very next host
operation: `H_ISSUE` of it. The hardware fetches nothing; a program is the host's script (log entry 4). -/
def State.withFetchWord (s : State) (nbits w : Nat) : State :=
  { s with port := .access (HostOp.issue (tableWord nbits w)).access :: s.port }

end Sys2Proof.Machine
end

