-- ==== Sys2Proof/Machine/Limbs.lean ====
section
/-! DEFINITION. The datapath at limb level (spec/41_datapath_primitives.md R66, R67, R69, R71 to R73; the limb levels of
spec/42_addsub.md R80, R82; spec/44_wide_reduction.md R96): the units the integer level of Machine/Datapath.lean is refined by.
No meaning uses them (log entry 13); the statements of Certificates/Slice0 compare the two levels. A limb vector is a list of
naturals, limb 0 first. -/

namespace Sys2Proof.Machine

/-- `limb(v, i)` (spec/00_scope.md R7). -/
def limb (v i : Nat) : Nat := v / 2 ^ (29 * i) % 2 ^ 29

/-- The nine limbs of a register value, limb 0 first (spec/10_state.md R11). -/
def limbs (v : Nat) : List Nat := (List.range Config.limbCount).map (limb v)

/-- `val(a)`: the sum of a[i]·2^(29·i); also of column vectors, whose entries may exceed a limb (spec/00_scope.md R7). -/
def val : List Nat → Nat
  | [] => 0
  | a :: as => a + 2 ^ 29 * val as

/-! ### Carry chains -/

/-- The carry chain of `LimbAdd` from a carry in (spec/41_datapath_primitives.md R72). -/
def limbAddFrom (c : Nat) : List Nat → List Nat → List Nat × Nat
  | x :: xs, y :: ys =>
    let w := x + y + c
    let (s, c') := limbAddFrom (w / 2 ^ 29) xs ys
    (w % 2 ^ 29 :: s, c')
  | _, _ => ([], c)

/-- `LimbAdd(x, y)` returns the sum's limbs and the carry out (spec/41_datapath_primitives.md R72). -/
def limbAdd (x y : List Nat) : List Nat × Nat := limbAddFrom 0 x y

/-- The borrow chain of `LimbSub` from a borrow in; `w` is signed (spec/41_datapath_primitives.md R73). -/
def limbSubFrom (bw : Nat) : List Nat → List Nat → List Nat × Nat
  | x :: xs, y :: ys =>
    let w : Int := (x : Int) - (y : Int) - (bw : Int)
    let (d, bw') := limbSubFrom (if w < 0 then 1 else 0) xs ys
    ((w % 2 ^ 29).toNat :: d, bw')
  | _, _ => ([], bw)

/-- `LimbSub(x, y)` returns the difference's limbs and the borrow out (spec/41_datapath_primitives.md R73). -/
def limbSub (x y : List Nat) : List Nat × Nat := limbSubFrom 0 x y

/-- The mask of a select bit: all 29 ones or all zeros (spec/41_datapath_primitives.md R71). -/
def selectMask (ge : Nat) : Nat := (2 ^ 29 - 1) * ge

/-- One limb of the constant-time select: `(d AND mask) OR (t AND NOT mask)` (spec/41_datapath_primitives.md R71). -/
def blendLimb (mask d t : Nat) : Nat := (d &&& mask) ||| (t &&& (mask ^^^ (2 ^ 29 - 1)))

/-- The select over limb vectors. -/
def blend (mask : Nat) (d t : List Nat) : List Nat := List.zipWith (blendLimb mask) d t

/-- Subtract L and select the difference when `hi` or no borrow says t ≥ L (spec/41_datapath_primitives.md R71; in `add`, `hi` is
the carry out, spec/42_addsub.md R80). -/
def selectReduced (hi : Nat) (tl : List Nat) : List Nat :=
  let (d, bw) := limbSub tl (limbs Const.L)
  blend (selectMask (hi ||| (1 - bw))) d tl

/-- `CondSubL` on nine columns whose top one may have 30 bits (spec/41_datapath_primitives.md R71). -/
def condSubLimbs (t : List Nat) : List Nat :=
  selectReduced (t.getD 8 0 / 2 ^ 29) (t.take 8 ++ [t.getD 8 0 % 2 ^ 29])

/-- `add` at limb level (spec/42_addsub.md R80). -/
def addLimbs (a b : List Nat) : List Nat :=
  let (s, c) := limbAdd a b
  selectReduced c s

/-- `sub` at limb level: L, masked by the borrow, is always added and the second carry is discarded (spec/42_addsub.md R82). -/
def subLimbs (a b : List Nat) : List Nat :=
  let (d, bw) := limbSub a b
  (limbAdd d ((limbs Const.L).map fun l => l &&& selectMask bw)).1

/-! ### Schoolbook product -/

/-- Column k of the product: the sum of a[i]·b[j] over i + j = k (spec/41_datapath_primitives.md R66). -/
def productColumn (a b k : Nat) : Nat :=
  ((List.range Config.limbCount).map fun i => if i ≤ k ∧ k - i ≤ 8 then limb a i * limb b (k - i) else 0).sum

/-- The eighteen columns z[0..17]; column 17 is the empty sum (spec/41_datapath_primitives.md R66). -/
def productColumns (a b : Nat) : List Nat := (List.range 18).map (productColumn a b)

/-- Column k of a square, each cross product taken once and doubled (spec/41_datapath_primitives.md R67). -/
def squareColumn (a k : Nat) : Nat :=
  ((List.range Config.limbCount).map fun i => if 2 * i < k ∧ k - i ≤ 8 then 2 * (limb a i * limb a (k - i)) else 0).sum
    + (if k % 2 = 0 then limb a (k / 2) ^ 2 else 0)

/-- The eighteen columns of the squaring form (spec/41_datapath_primitives.md R67; column 17 is zero, as in R66). -/
def squareColumns (a : Nat) : List Nat := (List.range 18).map (squareColumn a)

/-- The columns `frommont` reduces: the limbs zero-extended to double width (spec/41_datapath_primitives.md R69). -/
def extendedColumns (a : Nat) : List Nat := limbs a ++ List.replicate 9 0

/-! ### Montgomery reduction on columns -/

/-- A column accumulator: 64 bits, what does not fit is lost (spec/00_scope.md R5 `ACCW`, R6 says it never happens). -/
def acc64 (x : Nat) : Nat := x % 2 ^ Config.accBits

/-- The sum of m[j]·L[i-j] for j from `lo` to `hi - 1` (spec/41_datapath_primitives.md R69). -/
def multiplierSum (m : List Nat) (i lo hi : Nat) : Nat :=
  ((List.range hi).map fun j => if lo ≤ j then m.getD j 0 * limb Const.L (i - j) else 0).sum

/-- The first `n` of the nine rounds: the multipliers m[0..n-1] and the carry (spec/41_datapath_primitives.md R69). -/
def redcLow (z : List Nat) : Nat → List Nat × Nat
  | 0 => ([], 0)
  | i + 1 =>
    let (m, carry) := redcLow z i
    let acc := acc64 (z.getD i 0 + carry + multiplierSum m i 0 i)
    let mi := (acc % 2 ^ 29 * Const.LFACTOR) % 2 ^ 29
    let acc' := acc64 (acc + mi * limb Const.L 0)
    (m ++ [mi], acc' / 2 ^ 29)

/-- Columns 9 to 8 + n, from the multipliers and the carry: the limbs t[0..n-1] and the carry (spec/41_datapath_primitives.md R69). -/
def redcHigh (z m : List Nat) (carry : Nat) : Nat → List Nat × Nat
  | 0 => ([], carry)
  | n + 1 =>
    let (t, c) := redcHigh z m carry n
    let i := 9 + n
    let acc := acc64 (z.getD i 0 + c + multiplierSum m i (i - 8) 9)
    (t ++ [acc % 2 ^ 29], acc / 2 ^ 29)

/-- The nine columns of t before the last step; the top one is not masked (spec/41_datapath_primitives.md R69). -/
def redcColumns (z : List Nat) : List Nat :=
  let (m, carry) := redcLow z 9
  let (t, c) := redcHigh z m carry 8
  t ++ [acc64 (z.getD 17 0 + c)]

/-- `REDC` at limb level (spec/41_datapath_primitives.md R69). -/
def redcLimbs (z : List Nat) : List Nat := condSubLimbs (redcColumns z)

/-! ### Wide reduction -/

/-- The reference decomposition of the wide reduction (spec/44_wide_reduction.md R96). -/
def wideByParts (w : Nat) : Nat :=
  condSubL (redc (schoolbookMul (w % 2 ^ 261) Const.R) + redc (schoolbookMul (w / 2 ^ 261) Const.RR))

end Sys2Proof.Machine
end

