-- ==== Sys2Proof/Safety.lean ====
section
/-! DEFINITION. The terms the statements use: who reads and writes what (the table of spec/10_state.md R10), the invariant of the
machine, and reduced registers (R13). A run is safe when every state of it meets the invariant; no step faults. -/

namespace Sys2Proof

/-- The scalar registers a command reads (spec/10_state.md R10, column "read by"). -/
def Instr.sources : Instr → List RegId
  | .add _ ra rb => [ra, rb]
  | .sub _ ra rb => [ra, rb]
  | .mul _ ra rb => [ra, rb]
  | .sqr _ ra => [ra]
  | .mmul _ ra rb => [ra, rb]
  | .msqr _ ra => [ra]
  | .tomont _ ra => [ra]
  | .frommont _ ra => [ra]
  | .fbw _ _ => []
  | .tob ra => [ra]
  | .fb _ => []
  | .ldc _ _ => []
  | .eq ra rb => [ra, rb]

/-- How many buffer bytes, from byte 0 on, a command reads (spec/20_memory.md R30, R35). -/
def Instr.bytesRead : Instr → Nat
  | .fbw _ _ => 64
  | .fb _ => 32
  | .add _ _ _ => 0
  | .sub _ _ _ => 0
  | .mul _ _ _ => 0
  | .sqr _ _ => 0
  | .mmul _ _ _ => 0
  | .msqr _ _ => 0
  | .tomont _ _ => 0
  | .frommont _ _ => 0
  | .tob _ => 0
  | .ldc _ _ => 0
  | .eq _ _ => 0

/-- The scalar register a command names as its destination (spec/10_state.md R10, column "written by"). -/
def Instr.dest? : Instr → Option RegId
  | .add rd _ _ => some rd
  | .sub rd _ _ => some rd
  | .mul rd _ _ => some rd
  | .sqr rd _ => some rd
  | .mmul rd _ _ => some rd
  | .msqr rd _ => some rd
  | .tomont rd _ => some rd
  | .frommont rd _ => some rd
  | .fbw rd _ => some rd
  | .tob _ => none
  | .fb rd => some rd
  | .ldc rd _ => some rd
  | .eq _ _ => none

namespace Machine

/-- Every register is fully reduced (spec/10_state.md R13: its value is below L). -/
def State.allReduced (s : State) : Prop := ∀ r : RegId, s.readReg r < Const.L

/-- The invariant of the machine: the buffer keeps its canonical form, and what the last host operation gave back is what the
status register still says (spec/60_exceptions.md R105: the value `H_ISSUE` returns "is the same code"). -/
def State.Inv (s : State) : Prop :=
  Memory.wf s.buf ∧
  (∀ code, s.reply = some (.issued code) → s.cc = code) ∧
  (∀ w, s.reply = some (.status w) → s.statusWord = w)

/-- The port's oldest entry is `H_ISSUE(w)`: a 32-bit write of w at `CMD`, offset 0x00 (spec/20_memory.md R32, R33). -/
def State.issuesNext (s : State) (w : Word) (rest : List Input) : Prop :=
  s.port = .access (.write 0x00 32 w.toNat) :: rest

end Machine

end Sys2Proof
end

