-- ==== Sys2Proof/Certificates/Slice0/Obligations.lean ====
section
/-! DEFINITION. The statements for the provers, in the order of spec/: the encoding, the step and the host port, the whole machine,
each command, the datapath, the constants and the status register. An exec equation names the whole next state, so it says too what
the command leaves unchanged. -/

open Sys2Proof Sys2Proof.Machine

/-! ### Encoding (spec/30_encoding.md) -/

/-- Words of spec/95_test_vectors.md 2.12, one or more of every format, decode as listed there. -/
def Obligations.DecodesWrittenWords : Prop :=
  decode 0x01201000 = .command (.add 2 0 1) ∧
  decode 0x02777000 = .command (.sub 7 7 7) ∧
  decode 0x03012000 = .command (.mul 0 1 2) ∧
  decode 0x04100000 = .command (.sqr 1 0) ∧
  decode 0x05345000 = .command (.mmul 3 4 5) ∧
  decode 0x06700000 = .command (.msqr 7 0) ∧
  decode 0x07100000 = .command (.tomont 1 0) ∧
  decode 0x08010000 = .command (.frommont 0 1) ∧
  decode 0x0970003F = .command (.fbw 7 63) ∧
  decode 0x0A070000 = .command (.tob 7) ∧
  decode 0x0B300000 = .command (.fb 3) ∧
  decode 0x0C700004 = .command (.ldc 7 4) ∧
  decode 0x0D067000 = .command (.eq 6 7) ∧
  (decode 0x00000000).command? = none ∧
  (decode 0x01201100).command? = none ∧
  (decode 0x0C000005).command? = none

/-- Every well-formed command, with every operand its encoding admits, is read back from its word. -/
def Obligations.EncodeThenDecodeGivesCommand : Prop :=
  ∀ i : Instr, i.wellFormed = true → decode (encode i) = .command i

/-- Every legal word is the one word of the command it decodes to, and that command is well formed. -/
def Obligations.DecodeThenEncodeGivesWord : Prop :=
  ∀ (w : Word) (i : Instr), decode w = .command i → encode i = w ∧ i.wellFormed = true

/-- spec/30_encoding.md R50: the words (a) to (e), read off the word's digits, are exactly the illegal ones, and issuing one changes
`STATUS.CC` only; `fbw` with another `LEN` than 64 is legal and fails in execution. -/
def Obligations.IllegalWordsAreTheListedOnes : Prop :=
  (∀ w : Word,
    let opc := w.toNat / 2 ^ 24
    let rd := w.toNat / 2 ^ 20 % 16
    let ra := w.toNat / 2 ^ 16 % 16
    let rb := w.toNat / 2 ^ 12 % 16
    let z := w.toNat / 2 ^ 8 % 16
    let imm := w.toNat % 256
    let listed : Prop :=
      (opc < 0x01 ∨ 0x0D < opc) ∨
      z ≠ 0 ∨
      (opc ∉ [0x0A, 0x0D] ∧ 8 ≤ rd) ∨
      (opc ∉ [0x09, 0x0B, 0x0C] ∧ 8 ≤ ra) ∨
      (opc ∈ [0x01, 0x02, 0x03, 0x05, 0x0D] ∧ 8 ≤ rb) ∨
      (opc ∈ [0x0A, 0x0D] ∧ rd ≠ 0) ∨
      (opc ∈ [0x09, 0x0B, 0x0C] ∧ ra ≠ 0) ∨
      (opc ∉ [0x01, 0x02, 0x03, 0x05, 0x0D] ∧ rb ≠ 0) ∨
      (opc ∉ [0x09, 0x0C] ∧ imm ≠ 0) ∨
      (opc = 0x0C ∧ 5 ≤ imm)
    (listed ↔ ∃ why, decode w = .illegal why) ∧
    (listed → ∀ (s : State) (rest : List Input), s.issuesNext w rest →
      step s = .next { s with port := rest, cc := .illegalCommand, reply := some (.issued .illegalCommand) })) ∧
  (∀ (rd : RegId) (len : BitVec 8) (s : State), len.toNat ≠ 64 →
    decode (encode (.fbw rd len)) = .command (.fbw rd len) ∧
    exec (.fbw rd len) s = .next { s with cc := .lengthMismatch })

/-- spec/30_encoding.md R48: a word that decodes to a command matches exactly one row of the opcode map, and that row bears the
command's mnemonic; a word that is illegal matches none. -/
def Obligations.LegalWordMatchesExactlyOneRow : Prop :=
  ∀ w : Word,
    (∃ i, decode w = .command i ∧ (opcodeTable.filter fun row => row.fits w).map TableRow.mnemonic = [i.mnemonic]) ∨
    ((∃ why, decode w = .illegal why) ∧ (opcodeTable.filter fun row => row.fits w) = [])

/-- spec/30_encoding.md R54: byte k of a word on a byte transport is w[8k+7:8k], and the decoder reads it so; with R54's example. -/
def Obligations.BytesCarryTheWordLittleEndian : Prop :=
  (∀ (w : Word) (rest : List Byte), decodeBytes (bytesOfWord w ++ rest) = (decode w, rest)) ∧
  (∀ (w : Word) (k : Nat), k < 4 → ((bytesOfWord w).getD k 0).toNat = w.toNat / 2 ^ (8 * k) % 256) ∧
  bytesOfWord (encode (.add 2 0 1)) = [0x00, 0x10, 0x20, 0x01] ∧
  decodeBytes [0x00, 0x10, 0x20, 0x01] = (.command (.add 2 0 1), [])

/-! ### The step and the host port (spec/20_memory.md, spec/60_exceptions.md) -/

/-- When the word the port presents next decodes to a command, a step is that command's `exec` on the state with the port's entry
taken, and gives back its completion code. -/
def Obligations.StepRunsDecodedCommand : Prop :=
  ∀ (w : Word) (i : Instr) (s : State) (rest : List Input), decode w = .command i → s.issuesNext w rest →
    step s = match exec i { s with port := rest } with
      | .next t => .next { t with reply := some (.issued t.cc) }
      | .fault f => .fault f
      | .refused r => .refused r

/-- spec/60_exceptions.md R107, R112: an issued word always completes; its code is IllegalCommand exactly when the decoder rejects
it, else LengthMismatch exactly for `fbw` with `LEN` other than 64. With R112's examples. -/
def Obligations.CompletionCodeIsAFunctionOfTheWord : Prop :=
  (∀ (w : Word) (s : State) (rest : List Input), s.issuesNext w rest →
    ∃ t, step s = .next t ∧ t.port = rest ∧ t.reply = some (.issued t.cc) ∧
      (t.cc = .illegalCommand ↔ ∃ why, decode w = .illegal why) ∧
      (t.cc = .lengthMismatch ↔ ∃ rd len, decode w = .command (.fbw rd len) ∧ len.toNat ≠ 64)) ∧
  (decode 0x09800020).command? = none ∧
  decode 0x09000020 = .command (.fbw 0 32)

/-- spec/60_exceptions.md R108: a command that fails leaves everything but `STATUS.CC`. -/
def Obligations.FailedCommandChangesOnlyTheCode : Prop :=
  ∀ (w : Word) (s t : State) (rest : List Input), s.issuesNext w rest → step s = .next t → t.cc ≠ .ok →
    t = { s with port := rest, cc := t.cc, reply := some (.issued t.cc) }

/-- spec/20_memory.md R33: what each of the four host operations does. -/
def Obligations.HostOperationsDoTheirEffect : Prop :=
  ∀ (s : State) (rest : List Input),
    (∀ (w : Word) (i : Instr), s.issuesNext w rest → decode w = .command i →
      ∃ t, exec i { s with port := rest } = .next t ∧ step s = .next { t with reply := some (.issued t.cc) }) ∧
    (s.port = .access (.read 0x04 32) :: rest →
      step s = .next { s with port := rest, reply := some (.status s.statusWord) }) ∧
    (∀ j, j < 64 → s.port = .access (.read (0x40 + j) 8) :: rest →
      step s = .next { s with port := rest, reply := some (.byte (s.readByte j)) }) ∧
    (∀ (j : Nat) (v : Byte), j < 64 → s.port = .access (.write (0x40 + j) 8 v.toNat) :: rest →
      ∃ t, step s = .next t ∧ t = { s with port := rest, buf := t.buf, reply := some .written } ∧
        t.readByte j = v ∧ ∀ a, a ≠ j → t.readByte a = s.readByte a)

/-- spec/20_memory.md R32: the window's table is exactly what is accepted; every accepted access completes and is the only entry
taken; every other access is refused. -/
def Obligations.WindowAcceptsExactlyItsTable : Prop :=
  ∀ (s : State) (a : WindowAccess) (rest : List Input), s.port = .access a :: rest →
    let inTable : Prop :=
      (∃ v, a = .write 0x00 32 v) ∨ a = .read 0x04 32 ∨
      (∃ j, j < 64 ∧ (a = .read (0x40 + j) 8 ∨ ∃ v, a = .write (0x40 + j) 8 v))
    (inTable → ∃ t, step s = .next t ∧ t.port = rest) ∧ (¬inTable → step s = .refused .outsideWindow)

/-- spec/20_memory.md section 5, consequences (a) and (b), for adjacent operations. A byte read sees the host's write of it, and a
`tob`, just before; `fb` and `fbw` see the host's write just before, and none just after; a status read sees the code, and the flag,
that the word issued just before left. -/
def Obligations.OperationsSeeEarlierOnes : Prop :=
  ∀ (s : State) (rest : List Input),
    (∀ (j : Nat) (v : Byte), j < 64 →
      s.port = .access (.write (0x40 + j) 8 v.toNat) :: .access (.read (0x40 + j) 8) :: rest →
      ∃ t u, step s = .next t ∧ step t = .next u ∧ u.reply = some (.byte v) ∧ u.port = rest) ∧
    (∀ (j : Nat) (ra : RegId), j < 32 →
      s.port = .access (.write 0x00 32 (encode (.tob ra)).toNat) :: .access (.read (0x40 + j) 8) :: rest →
      ∃ t u, step s = .next t ∧ step t = .next u ∧
        u.reply = some (.byte (BitVec.ofNat 8 (s.readReg ra / 2 ^ (8 * j)))) ∧ u.port = rest) ∧
    (∀ (j : Nat) (v : Byte) (rd : RegId), j < 32 →
      s.port = .access (.write (0x40 + j) 8 v.toNat) :: .access (.write 0x00 32 (encode (.fb rd)).toNat) :: rest →
      ∃ t u, step s = .next t ∧ step t = .next u ∧ u.port = rest ∧ u.readReg rd =
        ((List.range 32).map fun k => (if k = j then v else s.readByte k).toNat * 2 ^ (8 * k)).sum) ∧
    (∀ (j : Nat) (v : Byte) (rd : RegId), j < 64 →
      s.port = .access (.write (0x40 + j) 8 v.toNat) :: .access (.write 0x00 32 (encode (.fbw rd 64)).toNat) :: rest →
      ∃ t u, step s = .next t ∧ step t = .next u ∧ u.port = rest ∧ u.readReg rd =
        ((List.range 64).map fun k => (if k = j then v else s.readByte k).toNat * 2 ^ (8 * k)).sum % Const.L) ∧
    (∀ (j : Nat) (v : Byte) (rd : RegId), j < 64 →
      s.port = .access (.write 0x00 32 (encode (.fb rd)).toNat) :: .access (.write (0x40 + j) 8 v.toNat) :: rest →
      ∃ t u, step s = .next t ∧ step t = .next u ∧ u.port = rest ∧ u.readByte j = v ∧ u.readReg rd =
        ((List.range 32).map fun k => (s.readByte k).toNat * 2 ^ (8 * k)).sum) ∧
    (∀ (j : Nat) (v : Byte) (rd : RegId), j < 64 →
      s.port = .access (.write 0x00 32 (encode (.fbw rd 64)).toNat) :: .access (.write (0x40 + j) 8 v.toNat) :: rest →
      ∃ t u, step s = .next t ∧ step t = .next u ∧ u.port = rest ∧ u.readByte j = v ∧ u.readReg rd =
        ((List.range 64).map fun k => (s.readByte k).toNat * 2 ^ (8 * k)).sum % Const.L) ∧
    (∀ w : Word, s.port = .access (.write 0x00 32 w.toNat) :: .access (.read 0x04 32) :: rest →
      ∃ t u st, step s = .next t ∧ step t = .next u ∧ u.port = rest ∧ u.reply = some (.status st) ∧ st = t.statusWord ∧
        (st.toNat % 4 = 2 ↔ ∃ why, decode w = .illegal why) ∧
        (st.toNat % 4 = 1 ↔ ∃ rd len, decode w = .command (.fbw rd len) ∧ len.toNat ≠ 64) ∧
        (∀ ra rb, decode w = .command (.eq ra rb) → st.toNat / 4 % 2 = if s.readReg ra = s.readReg rb then 1 else 0) ∧
        ((∀ ra rb, decode w ≠ .command (.eq ra rb)) → st.toNat / 4 % 2 = if s.eqFlag then 1 else 0))

/-- spec/20_memory.md section 5, consequence (d): of two commands issued one behind the other, the second executes on the state the
first left; so `add` of a register that the `add` before it wrote adds the new value. -/
def Obligations.CommandsSeeEarlierCommands : Prop :=
  ∀ (s : State) (rest : List Input),
    (∀ (w₁ w₂ : Word) (i₁ i₂ : Instr), decode w₁ = .command i₁ → decode w₂ = .command i₂ →
      s.port = .access (.write 0x00 32 w₁.toNat) :: .access (.write 0x00 32 w₂.toNat) :: rest →
      ∃ t u, exec i₁ { s with port := .access (.write 0x00 32 w₂.toNat) :: rest } = .next t ∧
        step s = .next { t with reply := some (.issued t.cc) } ∧
        exec i₂ { t with port := rest, reply := some (.issued t.cc) } = .next u ∧
        step { t with reply := some (.issued t.cc) } = .next { u with reply := some (.issued u.cc) }) ∧
    (∀ rd ra rb rd' : RegId,
      s.port = .access (.write 0x00 32 (encode (.add rd ra rb)).toNat) ::
        .access (.write 0x00 32 (encode (.add rd' rd rd)).toNat) :: rest →
      let reduced (x : Nat) : Nat := (x - if Const.L ≤ x then Const.L else 0) % 2 ^ 261
      ∃ t u, step s = .next t ∧ step t = .next u ∧ u.port = rest ∧
        u.readReg rd' = reduced (2 * reduced (s.readReg ra + s.readReg rb)))

/-- With nothing presented the block is idle and keeps all its state (spec/60_exceptions.md section 6; that a step is taken at all
is the model's choice, log entry 6). -/
def Obligations.IdleKeepsAllState : Prop :=
  ∀ s : State, s.port = [] → step s = .next s

/-- After a reset event `STATUS` is zero, what waited behind it waits on, and every register and byte holds the value drawn for this
reset, whatever it is (spec/70_reset_and_hazards.md section 1; the free values are the model's form of "unspecified", log entries 1
to 3). -/
def Obligations.ResetEventLeavesResetState : Prop :=
  (∀ (s : State) (rest : List Input), s.port = .reset :: rest →
    ∃ t, step s = .next t ∧ t.statusWord = 0 ∧ t.port = rest ∧ t.reply = none ∧
      (∀ r, t.regs[r] = Config.resetScalar t.draw r) ∧ (∀ a, t.readByte a = Config.resetByte t.draw a) ∧
      t.draw = s.draw + 1) ∧
  State.reset.statusWord = 0

/-! ### The whole machine -/

/-- The invariant holds right after reset. -/
def Obligations.ResetMeetsInvariant : Prop := State.reset.Inv

/-- Every step keeps the invariant: the buffer's canonical form, and the last reply's agreement with the status register. -/
def Obligations.StepKeepsInvariant : Prop :=
  ∀ s t : State, s.Inv → step s = .next t → t.Inv

/-- spec/10_state.md section 1, column "written by": a change of a register, a byte, the equality flag or the completion code comes
from a reset event or from a writer that the table lists. -/
def Obligations.OnlyListedWritersChangeState : Prop :=
  ∀ s t : State, step s = .next t → (∀ rest, s.port ≠ .reset :: rest) →
    (∀ r, t.readReg r ≠ s.readReg r → ∃ v rest i, s.port = .access (.write 0x00 32 v) :: rest ∧
      decode (BitVec.ofNat 32 v) = .command i ∧ i.dest? = some r) ∧
    (∀ a, t.readByte a ≠ s.readByte a →
      (∃ v rest, a < 64 ∧ s.port = .access (.write (0x40 + a) 8 v) :: rest) ∨
      (∃ v rest ra, a < 32 ∧ s.port = .access (.write 0x00 32 v) :: rest ∧
        decode (BitVec.ofNat 32 v) = .command (.tob ra))) ∧
    (t.eqFlag ≠ s.eqFlag → ∃ v rest ra rb, s.port = .access (.write 0x00 32 v) :: rest ∧
      decode (BitVec.ofNat 32 v) = .command (.eq ra rb)) ∧
    (t.cc ≠ s.cc → ∃ v rest, s.port = .access (.write 0x00 32 v) :: rest)

/-- spec/10_state.md section 1, column "read by": what a command writes depends only on the registers and bytes it is listed as
reading. -/
def Obligations.CommandsReadOnlyTheirSources : Prop :=
  ∀ (i : Instr) (s₁ s₂ t₁ t₂ : State),
    (∀ r ∈ i.sources, s₁.readReg r = s₂.readReg r) → (∀ a, a < i.bytesRead → s₁.readByte a = s₂.readByte a) →
    exec i s₁ = .next t₁ → exec i s₂ = .next t₂ →
      t₁.cc = t₂.cc ∧
      (t₁.cc = .ok → ∀ rd, i.dest? = some rd → t₁.readReg rd = t₂.readReg rd) ∧
      (∀ ra rb, i = .eq ra rb → t₁.eqFlag = t₂.eqFlag) ∧
      (∀ ra, i = .tob ra → ∀ a, a < 32 → t₁.readByte a = t₂.readByte a)

/-- The frame of the commands that write one scalar register: each completes, and every other register, every byte, the equality flag
and the model's own fields are as before. -/
def Obligations.RegisterCommandsFrame : Prop :=
  ∀ (s : State) (rd ra rb : RegId) (k : BitVec 8), k.toNat ≤ 4 →
    ∀ i ∈ ([.add rd ra rb, .sub rd ra rb, .mul rd ra rb, .sqr rd ra, .mmul rd ra rb, .msqr rd ra, .tomont rd ra,
        .frommont rd ra, .fbw rd 64, .fb rd, .ldc rd k] : List Instr),
      ∃ t, exec i s = .next t ∧ t.cc = .ok ∧ (∀ r, r ≠ rd → t.readReg r = s.readReg r) ∧
        (∀ a, t.readByte a = s.readByte a) ∧ t.eqFlag = s.eqFlag ∧
        t.draw = s.draw ∧ t.port = s.port ∧ t.reply = s.reply

/-- spec/10_state.md section 2 (a), (b): from registers that are all fully reduced, every step but a reset event, an `fb` and an
`ldc` of L leaves registers that are all fully reduced. -/
def Obligations.FullyReducedIsKept : Prop :=
  ∀ s t : State, s.allReduced → step s = .next t → (∀ rest, s.port ≠ .reset :: rest) →
    (∀ v rest rd, s.port = .access (.write 0x00 32 v) :: rest →
      decode (BitVec.ofNat 32 v) ≠ .command (.fb rd) ∧ decode (BitVec.ofNat 32 v) ≠ .command (.ldc rd 1)) →
    t.allReduced

/-! ### Constants and comparison (spec/40_constants_compare.md) -/

/-- spec/40_constants_compare.md R60: the word, the five constants, and that no other constant id is a command. -/
def Obligations.LdcStoresConstant : Prop :=
  ∀ (rd : RegId) (s : State),
    (∀ k : BitVec 8, (encode (.ldc rd k)).toNat = 0x0C000000 + rd.val * 2 ^ 20 + k.toNat) ∧
    exec (.ldc rd 0) s = .next { s with regs := s.regs.set rd 0, cc := .ok } ∧
    exec (.ldc rd 1) s = .next { s with
      regs := s.regs.set rd 0x1000000000000000000000000000000014def9dea2f79cd65812631a5cf5d3ed, cc := .ok } ∧
    exec (.ldc rd 2) s = .next { s with
      regs := s.regs.set rd 0x0fffffffffffffffffffffffffffffd656eb3c98b3bdf026334c2e60714df9ed, cc := .ok } ∧
    exec (.ldc rd 3) s = .next { s with
      regs := s.regs.set rd 0x05046df0c268f73bb1cf485fd6f9972d781a1f9babd635fcf7c28362eb5f9d12, cc := .ok } ∧
    exec (.ldc rd 4) s = .next { s with regs := s.regs.set rd 0x12547e1b, cc := .ok } ∧
    (∀ k : BitVec 8, 5 ≤ k.toNat → (decode (encode (.ldc rd k))).command? = none)

/-- spec/40_constants_compare.md R61: the equality flag compares the two integers, equivalently the nine limb pairs; for fully
reduced operands it compares residues. -/
def Obligations.EqComparesRepresentations : Prop :=
  ∀ (ra rb : RegId) (s : State),
    let a := s.readReg ra
    let b := s.readReg rb
    (encode (.eq ra rb)).toNat = 0x0D000000 + ra.val * 2 ^ 16 + rb.val * 2 ^ 12 ∧
    exec (.eq ra rb) s = .next { s with eqFlag := decide (a = b), cc := .ok } ∧
    (a = b ↔ ∀ k, k < 9 → limb a k = limb b k) ∧
    (a < Const.L → b < Const.L → (a = b ↔ a % Const.L = b % Const.L))

/-! ### Addition and subtraction (spec/42_addsub.md) -/

/-- spec/42_addsub.md R80: the word, the value stored, and the limb level that computes it. -/
def Obligations.AddStoresConditionallyReducedSum : Prop :=
  ∀ (rd ra rb : RegId) (s : State),
    let a := s.readReg ra
    let b := s.readReg rb
    let r := (a + b - if Const.L ≤ a + b then Const.L else 0) % 2 ^ 261
    (encode (.add rd ra rb)).toNat = 0x01000000 + rd.val * 2 ^ 20 + ra.val * 2 ^ 16 + rb.val * 2 ^ 12 ∧
    exec (.add rd ra rb) s = .next { s with regs := s.regs.set rd (BitVec.ofNat 261 r), cc := .ok } ∧
    val (addLimbs (limbs a) (limbs b)) = r

/-- spec/42_addsub.md R81: the result's range and residue, row by row; commutativity. -/
def Obligations.AddResultRanges : Prop :=
  ∀ (rd ra rb : RegId) (s : State), ∃ t, exec (.add rd ra rb) s = .next t ∧ exec (.add rd rb ra) s = .next t ∧
    let a := s.readReg ra
    let b := s.readReg rb
    let r := t.readReg rd
    (a < Const.L → b < Const.L → r = (a + b) % Const.L) ∧
    (a + b < 2 * Const.L → r = (a + b) % Const.L ∧ r = if a + b < Const.L then a + b else a + b - Const.L) ∧
    (2 * Const.L ≤ a + b → a + b < 2 ^ 261 + Const.L →
      r = a + b - Const.L ∧ r % Const.L = (a + b) % Const.L ∧ Const.L ≤ r) ∧
    (2 ^ 261 + Const.L ≤ a + b →
      r = a + b - Const.L - 2 ^ 261 ∧ (r + Const.R) % Const.L = (a + b) % Const.L) ∧
    (a < 2 ^ 260 → b < 2 ^ 260 → a + b < 2 ^ 261 + Const.L)

/-- spec/42_addsub.md R82: the word, the value stored, and the limb level that computes it. -/
def Obligations.SubStoresDifferenceWithOneAddBack : Prop :=
  ∀ (rd ra rb : RegId) (s : State),
    let a := s.readReg ra
    let b := s.readReg rb
    let r := (((a : Int) - b + if a < b then (Const.L : Int) else 0) % 2 ^ 261).toNat
    (encode (.sub rd ra rb)).toNat = 0x02000000 + rd.val * 2 ^ 20 + ra.val * 2 ^ 16 + rb.val * 2 ^ 12 ∧
    exec (.sub rd ra rb) s = .next { s with regs := s.regs.set rd (BitVec.ofNat 261 r), cc := .ok } ∧
    val (subLimbs (limbs a) (limbs b)) = r

/-- spec/42_addsub.md R83: the result's range and residue, row by row; `sub` of a register from itself; not commutative; the
inverse law. -/
def Obligations.SubResultRanges : Prop :=
  (∀ (rd ra rb : RegId) (s : State), ∃ t, exec (.sub rd ra rb) s = .next t ∧
    let a := s.readReg ra
    let b := s.readReg rb
    let r := t.readReg rd
    (a < Const.L → b < Const.L → (r : Int) = ((a : Int) - b) % Const.L) ∧
    (b ≤ a + Const.L → a < b + Const.L →
      (r : Int) = ((a : Int) - b) % Const.L ∧ r = if b ≤ a then a - b else a + Const.L - b) ∧
    (b + Const.L ≤ a → r = a - b ∧ Const.L ≤ r) ∧
    (a + Const.L < b → r = a + Const.L + 2 ^ 261 - b ∧ Const.L < r ∧ r < 2 ^ 261 ∧
      (r : Int) % Const.L = ((a : Int) - b + Const.R) % Const.L) ∧
    (ra = rb → r = 0)) ∧
  (∃ s, exec (.sub 2 0 1) s ≠ exec (.sub 2 1 0) s) ∧
  (∀ (rd ra rb : RegId) (s t u : State), rd ≠ rb → s.readReg ra < Const.L → s.readReg rb < Const.L →
    exec (.add rd ra rb) s = .next t → exec (.sub rd rd rb) t = .next u → u.readReg rd = s.readReg ra)

/-! ### The multiplication family (spec/43_multiply.md) -/

/-- spec/43_multiply.md R85: the word, that the two-stage reduction stores a·b mod L for every pair of register values, and
commutativity. -/
def Obligations.MulStoresProductModL : Prop :=
  ∀ (rd ra rb : RegId) (s : State),
    let a := s.readReg ra
    let b := s.readReg rb
    (encode (.mul rd ra rb)).toNat = 0x03000000 + rd.val * 2 ^ 20 + ra.val * 2 ^ 16 + rb.val * 2 ^ 12 ∧
    exec (.mul rd ra rb) s =
      .next { s with regs := s.regs.set rd (BitVec.ofNat 261 (a * b % Const.L)), cc := .ok } ∧
    a * b % Const.L = redc (redc (a * b) * Const.RR) ∧
    exec (.mul rd ra rb) s = exec (.mul rd rb ra) s

/-- spec/43_multiply.md R86: the word, a² mod L for every register value, and agreement with `mul sd, sa, sa`. -/
def Obligations.SqrStoresSquareModL : Prop :=
  ∀ (rd ra : RegId) (s : State),
    let a := s.readReg ra
    (encode (.sqr rd ra)).toNat = 0x04000000 + rd.val * 2 ^ 20 + ra.val * 2 ^ 16 ∧
    exec (.sqr rd ra) s =
      .next { s with regs := s.regs.set rd (BitVec.ofNat 261 (a ^ 2 % Const.L)), cc := .ok } ∧
    exec (.sqr rd ra) s = exec (.mul rd ra ra) s

/-- spec/43_multiply.md R87: the word; the result is congruent to a·b·RADIX⁻¹ and below 2^261; it is that residue when the product is
in the reduction's domain, and t − L otherwise; which operands are in the domain; the cases of R, RR and 1; commutativity. -/
def Obligations.MmulStoresMontgomeryProduct : Prop :=
  ∀ (rd ra rb : RegId) (s : State),
    let a := s.readReg ra
    let b := s.readReg rb
    let rinv := 0x064edb637937f48c1b0a73aa1c7fd1b5fd934be6d1d6d67ac7421b8f04c727e2
    (encode (.mmul rd ra rb)).toNat = 0x05000000 + rd.val * 2 ^ 20 + ra.val * 2 ^ 16 + rb.val * 2 ^ 12 ∧
    (∃ r, exec (.mmul rd ra rb) s = .next { s with regs := s.regs.set rd (BitVec.ofNat 261 r), cc := .ok } ∧
      r < 2 ^ 261 ∧ r % Const.L = a * b * rinv % Const.L ∧ r * 2 ^ 261 % Const.L = a * b % Const.L ∧
      (a * b < Const.L * 2 ^ 261 → r = a * b * rinv % Const.L) ∧
      (Const.L * 2 ^ 261 ≤ a * b → r + Const.L = redcRounds 9 (a * b)) ∧
      (b = Const.R → r = a % Const.L)) ∧
    (a < 2 ^ 256 → b < 2 ^ 256 → a * b < Const.L * 2 ^ 261) ∧
    (a ≤ Const.L ∨ b ≤ Const.L → a * b < Const.L * 2 ^ 261) ∧
    (b = Const.RR → exec (.mmul rd ra rb) s = exec (.tomont rd ra) s) ∧
    (b = 1 → exec (.mmul rd ra rb) s = exec (.frommont rd ra) s) ∧
    exec (.mmul rd ra rb) s = exec (.mmul rd rb ra) s

/-- spec/43_multiply.md R88: the word, one pass of the reduction over a², agreement with `mmul sd, sa, sa`, and the fully reduced
result in the domain, which holds every a below 2^256. -/
def Obligations.MsqrStoresMontgomerySquare : Prop :=
  ∀ (rd ra : RegId) (s : State),
    let a := s.readReg ra
    let rinv := 0x064edb637937f48c1b0a73aa1c7fd1b5fd934be6d1d6d67ac7421b8f04c727e2
    (encode (.msqr rd ra)).toNat = 0x06000000 + rd.val * 2 ^ 20 + ra.val * 2 ^ 16 ∧
    exec (.msqr rd ra) s = .next { s with regs := s.regs.set rd (BitVec.ofNat 261 (redc (a * a))), cc := .ok } ∧
    exec (.msqr rd ra) s = exec (.mmul rd ra ra) s ∧
    (a ^ 2 < Const.L * 2 ^ 261 → redc (a * a) = a ^ 2 * rinv % Const.L) ∧
    (a < 2 ^ 256 → a ^ 2 < Const.L * 2 ^ 261)

/-- spec/43_multiply.md R89: the word, x·2^261 mod L for every register value, and that the result differs from the residue of x
unless that is 0, and from x unless x is 0. -/
def Obligations.TomontStoresMontgomeryForm : Prop :=
  ∀ (rd ra : RegId) (s : State),
    let x := s.readReg ra
    let r := x * 2 ^ 261 % Const.L
    (encode (.tomont rd ra)).toNat = 0x07000000 + rd.val * 2 ^ 20 + ra.val * 2 ^ 16 ∧
    exec (.tomont rd ra) s = .next { s with regs := s.regs.set rd (BitVec.ofNat 261 r), cc := .ok } ∧
    r = x * Const.R % Const.L ∧
    (x % Const.L ≠ 0 → r ≠ x % Const.L) ∧
    (r = x ↔ x = 0)

/-- spec/43_multiply.md R90: the word and y·RADIX⁻¹ mod L for every register value; R gives 1, RR gives R. -/
def Obligations.FrommontStoresPlainForm : Prop :=
  ∀ (rd ra : RegId) (s : State),
    let y := s.readReg ra
    let r := y * 0x064edb637937f48c1b0a73aa1c7fd1b5fd934be6d1d6d67ac7421b8f04c727e2 % Const.L
    (encode (.frommont rd ra)).toNat = 0x08000000 + rd.val * 2 ^ 20 + ra.val * 2 ^ 16 ∧
    exec (.frommont rd ra) s = .next { s with regs := s.regs.set rd (BitVec.ofNat 261 r), cc := .ok } ∧
    r * 2 ^ 261 % Const.L = y % Const.L ∧
    (y = Const.R → r = 1) ∧ (y = Const.RR → r = Const.R)

/-- spec/43_multiply.md R91 (a) to (h), each command written as a function of register values; the first clause ties those functions
to `exec`. -/
def Obligations.MultiplyIdentities : Prop :=
  (∀ (rd ra rb : RegId) (s : State),
    let store (v : Nat) : Host.Outcome State Fault Refusal :=
      .next { s with regs := s.regs.set rd (BitVec.ofNat 261 v), cc := .ok }
    let a := s.readReg ra
    let b := s.readReg rb
    exec (.mul rd ra rb) s = store (mulValue a b) ∧ exec (.mmul rd ra rb) s = store (mmulValue a b) ∧
    exec (.tomont rd ra) s = store (tomontValue a) ∧ exec (.frommont rd ra) s = store (frommontValue a) ∧
    exec (.sqr rd ra) s = store (mulValue a a) ∧ exec (.msqr rd ra) s = store (mmulValue a a)) ∧
  ∀ a b : Nat, a < 2 ^ 261 → b < 2 ^ 261 →
    mulValue a b = mulValue b a ∧ mmulValue a b = mmulValue b a ∧
    mulValue a b = mmulValue (tomontValue a) b ∧
    frommontValue (mmulValue (tomontValue a) (tomontValue b)) = mulValue a b ∧
    frommontValue (tomontValue a) = a % Const.L ∧ tomontValue (frommontValue a) = a % Const.L ∧
    tomontValue a = mmulValue a Const.RR ∧ frommontValue a = mmulValue a 1 ∧
    (a ≠ 0 → tomontValue a ≠ a) ∧
    mulValue a b < Const.L ∧ tomontValue a < Const.L ∧ frommontValue a < Const.L ∧
    (a * b < Const.L * 2 ^ 261 → mmulValue a b < Const.L)

/-! ### Wide reduction and serialization (spec/44_wide_reduction.md, spec/45_serialization.md) -/

/-- spec/44_wide_reduction.md R95: the word; with `LEN` = 64 the destination receives exactly W mod L; with any other `LEN` only the
code changes. -/
def Obligations.FbwStoresWideResidue : Prop :=
  ∀ (rd : RegId) (s : State),
    let w := ((List.range 64).map fun j => (s.readByte j).toNat * 2 ^ (8 * j)).sum
    (∀ len : BitVec 8, (encode (.fbw rd len)).toNat = 0x09000000 + rd.val * 2 ^ 20 + len.toNat) ∧
    w < 2 ^ 512 ∧
    exec (.fbw rd 64) s =
      .next { s with regs := s.regs.set rd (BitVec.ofNat 261 (w % Const.L)), cc := .ok } ∧
    (∀ len : BitVec 8, len.toNat ≠ 64 → exec (.fbw rd len) s = .next { s with cc := .lengthMismatch })

/-- spec/44_wide_reduction.md R96: the reference decomposition computes W mod L for every 512-bit W, its two halves are the residues
stated, and it is `add` of two `mmul`. -/
def Obligations.WideDecompositionIsResidue : Prop :=
  ∀ w : Nat, w < 2 ^ 512 →
    let lo := w % 2 ^ 261
    let hi := w / 2 ^ 261
    redc (schoolbookMul lo Const.R) = lo % Const.L ∧
    redc (schoolbookMul hi Const.RR) = hi * 2 ^ 261 % Const.L ∧
    wideByParts w = w % Const.L ∧
    wideByParts w = addValue (mmulValue hi Const.RR) (mmulValue lo Const.R)

/-- spec/45_serialization.md R100: the word; bytes 0..31 receive the low 256 bits of the register, little-endian, bit k of the
encoding being bit k mod 29 of limb k div 29; every other byte and everything else is unchanged, `STATUS.CC` becomes OK. -/
def Obligations.TobStoresLow256Bits : Prop :=
  ∀ (ra : RegId) (s : State),
    let v := s.readReg ra
    (encode (.tob ra)).toNat = 0x0A000000 + ra.val * 2 ^ 16 ∧
    ∃ t, exec (.tob ra) s = .next t ∧ t = { s with buf := t.buf, cc := .ok } ∧
      (∀ j, j < 32 → (t.readByte j).toNat = v / 2 ^ (8 * j) % 256) ∧
      (∀ k, k < 256 → (t.readByte (k / 8)).toNat.testBit (k % 8) = (limb v (k / 29)).testBit (k % 29)) ∧
      (∀ a, 32 ≤ a → t.readByte a = s.readByte a)

/-- spec/45_serialization.md R101: the word; the destination receives the 256-bit integer of bytes 0..31, limb by limb, not reduced. -/
def Obligations.FbLoadsUnreducedInteger : Prop :=
  ∀ (rd : RegId) (s : State),
    let v := ((List.range 32).map fun j => (s.readByte j).toNat * 2 ^ (8 * j)).sum
    (encode (.fb rd)).toNat = 0x0B000000 + rd.val * 2 ^ 20 ∧
    v < 2 ^ 256 ∧
    ∃ t, exec (.fb rd) s = .next t ∧ t = { s with regs := s.regs.set rd (BitVec.ofNat 261 v), cc := .ok } ∧
      t.readReg rd = v ∧ (∀ k, k < 9 → limb (t.readReg rd) k = v / 2 ^ (29 * k) % 2 ^ 29) ∧
      limb (t.readReg rd) 8 < 2 ^ 24

/-- spec/45_serialization.md round trips (a) to (c): `fb` after `tob` gives the low 256 bits back, all of a value below 2^256; `tob`
after `fb` leaves every byte as it was. -/
def Obligations.SerializationRoundTrips : Prop :=
  (∀ (ra rd : RegId) (s : State), ∃ t u, exec (.tob ra) s = .next t ∧ exec (.fb rd) t = .next u ∧
    u.readReg rd = s.readReg ra % 2 ^ 256 ∧ (s.readReg ra < 2 ^ 256 → u.readReg rd = s.readReg ra)) ∧
  (∀ (rd : RegId) (s : State), ∃ t u, exec (.fb rd) s = .next t ∧ exec (.tob rd) t = .next u ∧
    ∀ a, u.readByte a = s.readByte a)

/-- When `fb` and `fbw` with `LEN` = 64 store the same value: exactly when the low half is below L and the high half is a multiple of
L. (spec/45_serialization.md round trip (d) says "when BUF[32..63] are zero", which is one such case; log entry 20.) -/
def Obligations.FbAgreesWithFbwWhenHighHalfDivisible : Prop :=
  ∀ (rd : RegId) (s : State), ∃ t u, exec (.fb rd) s = .next t ∧ exec (.fbw rd 64) s = .next u ∧
    (t.readReg rd = u.readReg rd ↔ s.memRead 0 32 < Const.L ∧ Const.L ∣ s.memRead 32 32) ∧
    ((∀ j, 32 ≤ j → j < 64 → s.readByte j = 0) → s.memRead 0 32 < Const.L → t.readReg rd = u.readReg rd)

/-- spec/45_serialization.md round trip (d) read to the letter, "exactly when BUF[32..63] are zero and MemRead(0,32) < L". Expected to
FAIL: a high half equal to L adds a multiple of L (log entry 20). -/
def Obligations.FbAgreesWithFbwOnlyWhenHighBytesZero : Prop :=
  ∀ (rd : RegId) (s t u : State), exec (.fb rd) s = .next t → exec (.fbw rd 64) s = .next u →
    (t.readReg rd = u.readReg rd ↔
      (∀ j, 32 ≤ j → j < 64 → s.readByte j = 0) ∧ s.memRead 0 32 < Const.L)

/-- spec/20_memory.md section 2 (little-endian): `MemRead` and `MemWrite` are the formulas, and the 64-byte integer's low 256 bits are
the 32-byte integer. -/
def Obligations.BlocksAreLittleEndian : Prop :=
  ∀ s : State,
    (∀ addr n, s.memRead addr n = ((List.range n).map fun j => (s.readByte (addr + j)).toNat * 2 ^ (8 * j)).sum) ∧
    (∀ addr n v, v < 2 ^ (8 * n) →
      (s.memWrite addr n v).memRead addr n = v ∧
      (∀ j, j < n → ((s.memWrite addr n v).readByte (addr + j)).toNat = v / 2 ^ (8 * j) % 256) ∧
      (∀ a, a < addr ∨ addr + n ≤ a → (s.memWrite addr n v).readByte a = s.readByte a)) ∧
    s.memRead 0 64 % 2 ^ 256 = s.memRead 0 32

/-! ### The datapath (spec/41_datapath_primitives.md) -/

/-- spec/41_datapath_primitives.md R66: the product is exact and below 2^522; its eighteen columns, the last one zero, have the
product as their value and are at most 9·(2^29 − 1)^2, below 2^62. -/
def Obligations.ProductColumnsHoldTheProduct : Prop :=
  ∀ a b : Nat, a < 2 ^ 261 → b < 2 ^ 261 →
    schoolbookMul a b = a * b ∧ a * b < 2 ^ 522 ∧
    (productColumns a b).length = 18 ∧ val (productColumns a b) = a * b ∧
    (∀ z ∈ productColumns a b, z ≤ 9 * (2 ^ 29 - 1) ^ 2 ∧ z < 2 ^ 62) ∧ (productColumns a b).getD 17 1 = 0

/-- The squaring form of the columns, 45 limb products, gives the columns of the product of a with itself
(spec/41_datapath_primitives.md section 2, squaring). -/
def Obligations.SquaringFormIsTheProduct : Prop :=
  ∀ a : Nat, a < 2 ^ 261 → squareColumns a = productColumns a a

/-- spec/41_datapath_primitives.md R68: the rounds and the closed form are the same function, for any integer that is −L⁻¹ modulo
2^261. -/
def Obligations.RedcHasItsClosedForm : Prop :=
  ∀ negInv : Nat, negInv * Const.L % 2 ^ 261 = 2 ^ 261 - 1 →
    ∀ p : Nat, p < 2 ^ 522 →
      let m := p * negInv % 2 ^ 261
      let t := (p + m * Const.L) / 2 ^ 261
      val ((List.range 9).map fun i => redcMultiplier (redcRounds i p)) = m ∧
      (p + m * Const.L) % 2 ^ 261 = 0 ∧
      redcRounds 9 p = t ∧ t < 2 ^ 261 + Const.L ∧
      redc p = if Const.L ≤ t then t - Const.L else t

/-- spec/41_datapath_primitives.md R70 (a) to (f). -/
def Obligations.RedcProperties : Prop :=
  let rinv := 0x064edb637937f48c1b0a73aa1c7fd1b5fd934be6d1d6d67ac7421b8f04c727e2
  (∀ p : Nat, p < 2 ^ 522 →
    let t := redcRounds 9 p
    (∀ i, i < 9 → (redcRounds i p + redcMultiplier (redcRounds i p) * Const.L) % 2 ^ 29 = 0) ∧
    (∃ m, m < 2 ^ 261 ∧ t * 2 ^ 261 = p + m * Const.L) ∧
    t % Const.L = p * rinv % Const.L ∧ redc p % Const.L = p * rinv % Const.L ∧
    t * 2 ^ 261 < p + Const.L * 2 ^ 261 ∧
    (p < Const.L * 2 ^ 261 → t < 2 * Const.L ∧ redc p < Const.L ∧ redc p = p * rinv % Const.L) ∧
    t < 2 ^ 261 + Const.L ∧ redc p < 2 ^ 261) ∧
  redc 0 = 0 ∧ redc Const.R = 1 ∧ redc Const.RR = Const.R ∧
  (∀ x, x < Const.L → redc (x * Const.R % Const.L) = x) ∧
  redc (Const.L * 2 ^ 261 - 1) = Const.L - rinv ∧ Const.L ≤ redcRounds 9 (Const.L * 2 ^ 261 - 1) ∧
  redc (Const.L * 2 ^ 261) = 0 ∧ redcRounds 9 (Const.L * 2 ^ 261) = Const.L ∧
  2 ^ 513 < Const.L * 2 ^ 261 ∧
  (∀ a b, a < 2 ^ 256 → b < 2 ^ 256 → a * b < Const.L * 2 ^ 261)

/-- The limb-level reduction with 64-bit accumulators computes the integer-level one, multipliers and columns included, for every
product of two register values and for a zero-extended register (spec/41_datapath_primitives.md section 3, limb level). -/
def Obligations.LimbReductionRefinesInteger : Prop :=
  ∀ a b : Nat, a < 2 ^ 261 → b < 2 ^ 261 →
    (redcLow (productColumns a b) 9).1 = (List.range 9).map (fun i => redcMultiplier (redcRounds i (a * b))) ∧
    val (redcColumns (productColumns a b)) = redcRounds 9 (a * b) ∧
    val (redcLimbs (productColumns a b)) = redc (a * b) ∧
    (redcLimbs (productColumns a b)).length = 9 ∧ (∀ l ∈ redcLimbs (productColumns a b), l < 2 ^ 29) ∧
    val (redcLimbs (extendedColumns a)) = redc a

/-- spec/41_datapath_primitives.md R71: one conditional subtraction; the masked select on columns with a 30-bit top column computes it,
modulo 2^261, and exactly below 2^261 + L. -/
def Obligations.MaskedSelectIsConditionalSubtraction : Prop :=
  (∀ t : Nat, condSubL t = if Const.L ≤ t then t - Const.L else t) ∧
  ∀ ts : List Nat, ts.length = 9 → (∀ l ∈ ts.take 8, l < 2 ^ 29) → ts.getD 8 0 < 2 ^ 30 →
    val (condSubLimbs ts) = condSubL (val ts) % 2 ^ 261 ∧
    (val ts < 2 ^ 261 + Const.L → val (condSubLimbs ts) = condSubL (val ts)) ∧
    (condSubLimbs ts).length = 9 ∧ ∀ l ∈ condSubLimbs ts, l < 2 ^ 29

/-- spec/41_datapath_primitives.md R72 and R73: what the two ripple chains compute on nine-limb vectors, and their carry and borrow. -/
def Obligations.CarryChainsAreExact : Prop :=
  ∀ x y : List Nat, x.length = 9 → y.length = 9 → (∀ l ∈ x, l < 2 ^ 29) → (∀ l ∈ y, l < 2 ^ 29) →
    val x + val y = val (limbAdd x y).1 + (limbAdd x y).2 * 2 ^ 261 ∧ (limbAdd x y).2 ≤ 1 ∧
    (limbAdd x y).1.length = 9 ∧ (∀ l ∈ (limbAdd x y).1, l < 2 ^ 29) ∧
    val x + (limbSub x y).2 * 2 ^ 261 = val (limbSub x y).1 + val y ∧ (limbSub x y).2 ≤ 1 ∧
    ((limbSub x y).2 = 1 ↔ val x < val y) ∧
    (limbSub x y).1.length = 9 ∧ ∀ l ∈ (limbSub x y).1, l < 2 ^ 29

/-! ### Constants and status (spec/10_state.md) -/

/-- spec/10_state.md R15: the constants are their formulas and their literals, and have the limbs listed. -/
def Obligations.ConstantsAreTheirFormulas : Prop :=
  Const.L = 0x1000000000000000000000000000000014def9dea2f79cd65812631a5cf5d3ed ∧
  Const.L = 2 ^ 252 + 27742317777372353535851937790883648493 ∧
  Const.R = 2 ^ 261 % Const.L ∧ Const.RR = Const.R ^ 2 % Const.L ∧
  Const.LFACTOR < 2 ^ 29 ∧ Const.LFACTOR * Const.L % 2 ^ 29 = 2 ^ 29 - 1 ∧
  limbs Const.L = [0x1cf5d3ed, 0x009318d2, 0x1de73596, 0x1df3bd45, 0x0000014d, 0, 0, 0, 0x00100000] ∧
  limbs Const.R = [0x114df9ed, 0x1a617303, 0x0f7c098c, 0x16793167, 0x1ffd656e, 0x1fffffff, 0x1fffffff, 0x1fffffff, 0x000fffff] ∧
  limbs Const.RR = [0x0b5f9d12, 0x1e141b17, 0x158d7f3d, 0x143f3757, 0x1972d781, 0x042feb7c, 0x1ceec73d, 0x1e184d1e, 0x0005046d] ∧
  limbs Const.LFACTOR = [0x12547e1b, 0, 0, 0, 0, 0, 0, 0, 0] ∧
  [constOperand 0, constOperand 1, constOperand 2, constOperand 3, constOperand 4]
    = [some 0, some Const.L, some Const.R, some Const.RR, some Const.LFACTOR]

/-- spec/10_state.md R19: the fields of the word `STATUS`, the reserved bits zero, code 3 never, and zero at reset. -/
def Obligations.StatusWordHasItsLayout : Prop :=
  (∀ s : State,
    s.statusWord.toNat / 8 = 0 ∧
    s.statusWord.toNat / 4 % 2 = (if s.eqFlag then 1 else 0) ∧
    (s.statusWord.toNat % 4 = 0 ↔ s.cc = .ok) ∧
    (s.statusWord.toNat % 4 = 1 ↔ s.cc = .lengthMismatch) ∧
    (s.statusWord.toNat % 4 = 2 ↔ s.cc = .illegalCommand) ∧
    s.statusWord.toNat % 4 ≠ 3) ∧
  State.reset.statusWord = 0
end

