-- ==== Sys2Proof/Laws/Decode.lean ====
section
/-! SUPPORT. The fields of a command word and the word of its fields undo one another; a register's field names it. -/

namespace Sys2Proof

/-- The value of a concatenation, the left part the more significant. -/
theorem toNat_append_add {m n : Nat} (x : BitVec m) (y : BitVec n) : (x ++ y).toNat = x.toNat * 2 ^ n + y.toNat := by
  rw [BitVec.toNat_append, ← Nat.shiftLeft_add_eq_or_of_lt y.isLt, Nat.shiftLeft_eq]

/-- A word's value is the sum of its fields at their places (spec/30_encoding.md R46). -/
theorem Fields.toNat_toWord (f : Fields) :
    f.toWord.toNat = f.opc.toNat * 2 ^ 24 + f.rd.toNat * 2 ^ 20 + f.ra.toNat * 2 ^ 16 + f.rb.toNat * 2 ^ 12
      + f.z.toNat * 2 ^ 8 + f.imm.toNat := by
  have all : ∀ (a : BitVec 8) (b c d e : BitVec 4) (g : BitVec 8), (a ++ b ++ c ++ d ++ e ++ g).toNat =
      a.toNat * 2 ^ 24 + b.toNat * 2 ^ 20 + c.toNat * 2 ^ 16 + d.toNat * 2 ^ 12 + e.toNat * 2 ^ 8 + g.toNat := by
    intro a b c d e g
    simp only [toNat_append_add]
    omega
  exact all f.opc f.rd f.ra f.rb f.z f.imm

/-- Reading the fields of a word made of fields gives them back. -/
theorem Fields.ofWord_toWord (f : Fields) : Fields.ofWord f.toWord = f := by
  have h := f.toNat_toWord
  have h1 := f.opc.isLt
  have h2 := f.rd.isLt
  have h3 := f.ra.isLt
  have h4 := f.rb.isLt
  have h5 := f.z.isLt
  have h6 := f.imm.isLt
  cases f
  simp only [Fields.ofWord, Fields.mk.injEq] at *
  refine ⟨?_, ?_, ?_, ?_, ?_, ?_⟩ <;> apply BitVec.eq_of_toNat_eq <;>
    simp only [BitVec.extractLsb'_toNat, Nat.shiftRight_eq_div_pow, h] <;> omega

/-- A word is made of its fields. -/
theorem Fields.toWord_ofWord (w : Word) : (Fields.ofWord w).toWord = w := by
  apply BitVec.eq_of_toNat_eq
  rw [Fields.toNat_toWord]
  have h := w.isLt
  simp only [Fields.ofWord, BitVec.extractLsb'_toNat, Nat.shiftRight_eq_div_pow]
  omega

/-- The field that names a register is read as that register. -/
@[simp] theorem regOfField_fieldOfReg (r : RegId) : regOfField (fieldOfReg r) = some r := by
  revert r; decide

/-- A field that names a register is that register's field. -/
theorem fieldOfReg_of_regOfField {f : BitVec 4} {r : RegId} (h : regOfField f = some r) : fieldOfReg r = f := by
  revert f r; decide

/-- The bytes of a word on a byte transport are read as that word (spec/30_encoding.md R54). -/
theorem wordOfBytes_bytesOfWord (w : Word) :
    wordOfBytes (w.extractLsb' 0 8) (w.extractLsb' 8 8) (w.extractLsb' 16 8) (w.extractLsb' 24 8) = w := by
  have join : ∀ (a b c d : Byte), (a ++ b ++ c ++ d).toNat =
      a.toNat * 2 ^ 24 + b.toNat * 2 ^ 16 + c.toNat * 2 ^ 8 + d.toNat := by
    intro a b c d
    simp only [toNat_append_add]
    omega
  apply BitVec.eq_of_toNat_eq
  refine (join _ _ _ _).trans ?_
  have h := w.isLt
  simp only [BitVec.extractLsb'_toNat, Nat.shiftRight_eq_div_pow]
  omega

end Sys2Proof
end

