-- ==== Sys2Proof/Laws/State.lean ====
section
/-! SUPPORT. One lemma per field per update of State, true by rfl, so that no proof unfolds a record update. -/

namespace Sys2Proof.Machine.State

variable (s : State)

/-! ### `writeByte` -/

@[simp] theorem writeByte_regs (a : Nat) (b : Byte) : (s.writeByte a b).regs = s.regs := rfl
@[simp] theorem writeByte_buf (a : Nat) (b : Byte) : (s.writeByte a b).buf = Memory.insert s.buf a b := rfl
@[simp] theorem writeByte_cc (a : Nat) (b : Byte) : (s.writeByte a b).cc = s.cc := rfl
@[simp] theorem writeByte_eqFlag (a : Nat) (b : Byte) : (s.writeByte a b).eqFlag = s.eqFlag := rfl
@[simp] theorem writeByte_draw (a : Nat) (b : Byte) : (s.writeByte a b).draw = s.draw := rfl
@[simp] theorem writeByte_port (a : Nat) (b : Byte) : (s.writeByte a b).port = s.port := rfl
@[simp] theorem writeByte_reply (a : Nat) (b : Byte) : (s.writeByte a b).reply = s.reply := rfl

/-! ### `writeReg` -/

@[simp] theorem writeReg_regs (r : RegId) (v : Nat) : (s.writeReg r v).regs = s.regs.set r (BitVec.ofNat 261 v) := rfl
@[simp] theorem writeReg_buf (r : RegId) (v : Nat) : (s.writeReg r v).buf = s.buf := rfl
@[simp] theorem writeReg_cc (r : RegId) (v : Nat) : (s.writeReg r v).cc = s.cc := rfl
@[simp] theorem writeReg_eqFlag (r : RegId) (v : Nat) : (s.writeReg r v).eqFlag = s.eqFlag := rfl
@[simp] theorem writeReg_draw (r : RegId) (v : Nat) : (s.writeReg r v).draw = s.draw := rfl
@[simp] theorem writeReg_port (r : RegId) (v : Nat) : (s.writeReg r v).port = s.port := rfl
@[simp] theorem writeReg_reply (r : RegId) (v : Nat) : (s.writeReg r v).reply = s.reply := rfl

/-! ### `setEq` -/

@[simp] theorem setEq_regs (b : Bool) : (s.setEq b).regs = s.regs := rfl
@[simp] theorem setEq_buf (b : Bool) : (s.setEq b).buf = s.buf := rfl
@[simp] theorem setEq_cc (b : Bool) : (s.setEq b).cc = s.cc := rfl
@[simp] theorem setEq_eqFlag (b : Bool) : (s.setEq b).eqFlag = b := rfl
@[simp] theorem setEq_draw (b : Bool) : (s.setEq b).draw = s.draw := rfl
@[simp] theorem setEq_port (b : Bool) : (s.setEq b).port = s.port := rfl
@[simp] theorem setEq_reply (b : Bool) : (s.setEq b).reply = s.reply := rfl

/-! ### `setCC` -/

@[simp] theorem setCC_regs (code : CompletionCode) : (s.setCC code).regs = s.regs := rfl
@[simp] theorem setCC_buf (code : CompletionCode) : (s.setCC code).buf = s.buf := rfl
@[simp] theorem setCC_cc (code : CompletionCode) : (s.setCC code).cc = code := rfl
@[simp] theorem setCC_eqFlag (code : CompletionCode) : (s.setCC code).eqFlag = s.eqFlag := rfl
@[simp] theorem setCC_draw (code : CompletionCode) : (s.setCC code).draw = s.draw := rfl
@[simp] theorem setCC_port (code : CompletionCode) : (s.setCC code).port = s.port := rfl
@[simp] theorem setCC_reply (code : CompletionCode) : (s.setCC code).reply = s.reply := rfl

/-! ### `withPort` -/

@[simp] theorem withPort_regs (rest : List Input) : (s.withPort rest).regs = s.regs := rfl
@[simp] theorem withPort_buf (rest : List Input) : (s.withPort rest).buf = s.buf := rfl
@[simp] theorem withPort_cc (rest : List Input) : (s.withPort rest).cc = s.cc := rfl
@[simp] theorem withPort_eqFlag (rest : List Input) : (s.withPort rest).eqFlag = s.eqFlag := rfl
@[simp] theorem withPort_draw (rest : List Input) : (s.withPort rest).draw = s.draw := rfl
@[simp] theorem withPort_port (rest : List Input) : (s.withPort rest).port = rest := rfl
@[simp] theorem withPort_reply (rest : List Input) : (s.withPort rest).reply = s.reply := rfl

/-! ### `withReply` -/

@[simp] theorem withReply_regs (r : HostReply) : (s.withReply r).regs = s.regs := rfl
@[simp] theorem withReply_buf (r : HostReply) : (s.withReply r).buf = s.buf := rfl
@[simp] theorem withReply_cc (r : HostReply) : (s.withReply r).cc = s.cc := rfl
@[simp] theorem withReply_eqFlag (r : HostReply) : (s.withReply r).eqFlag = s.eqFlag := rfl
@[simp] theorem withReply_draw (r : HostReply) : (s.withReply r).draw = s.draw := rfl
@[simp] theorem withReply_port (r : HostReply) : (s.withReply r).port = s.port := rfl
@[simp] theorem withReply_reply (r : HostReply) : (s.withReply r).reply = some r := rfl

/-! ### After reset -/

@[simp] theorem afterReset_buf (n : Nat) : (afterReset n).buf = [] := rfl
@[simp] theorem afterReset_cc (n : Nat) : (afterReset n).cc = .ok := rfl
@[simp] theorem afterReset_eqFlag (n : Nat) : (afterReset n).eqFlag = false := rfl
@[simp] theorem afterReset_draw (n : Nat) : (afterReset n).draw = n := rfl
@[simp] theorem afterReset_port (n : Nat) : (afterReset n).port = [] := rfl
@[simp] theorem afterReset_reply (n : Nat) : (afterReset n).reply = none := rfl

end Sys2Proof.Machine.State
end

