-- ==== Sys2Proof/Laws/Memory.lean ====
section
/-! SUPPORT. The laws of the buffer: read after write, nothing else moves, the canonical form is kept. -/

namespace Sys2Proof.Machine

/-! ### The list of cells -/

theorem Memory.lookup_insert_same (m : List Host.Cell) (a : Nat) (b : Byte) :
    Memory.lookup (Memory.insert m a b) a = some b := by
  induction m with
  | nil => simp [Memory.insert, Memory.lookup]
  | cons c m ih =>
    unfold Memory.insert
    split
    · simp [Memory.lookup]
    · split
      · simp [Memory.lookup]
      · have hne : c.1 ≠ a := by omega
        simp [Memory.lookup, hne, ih]

theorem Memory.lookup_insert_ne (m : List Host.Cell) {a a' : Nat} (h : a' ≠ a) (b : Byte) :
    Memory.lookup (Memory.insert m a b) a' = Memory.lookup m a' := by
  have h' : ¬a = a' := fun e => h e.symm
  induction m with
  | nil => simp [Memory.insert, Memory.lookup, h']
  | cons c m ih =>
    unfold Memory.insert
    split
    · simp [Memory.lookup, h']
    · split
      · have hne : ¬c.1 = a' := by omega
        simp [Memory.lookup, h', hne]
      · simp [Memory.lookup, ih]

/-- Every address the insertion leaves listed was listed or is the one inserted. -/
theorem Memory.mem_insert {m : List Host.Cell} {a : Nat} {b : Byte} {c : Host.Cell}
    (h : c ∈ Memory.insert m a b) : c = (a, b) ∨ c ∈ m := by
  induction m with
  | nil => simpa [Memory.insert] using h
  | cons d m ih =>
    unfold Memory.insert at h
    split at h
    · simpa using h
    · split at h
      · rcases List.mem_cons.1 h with h | h
        · exact .inl h
        · exact .inr (List.mem_cons_of_mem _ h)
      · rcases List.mem_cons.1 h with h | h
        · exact .inr (h ▸ List.mem_cons_self)
        · exact (ih h).imp_right (List.mem_cons_of_mem _)

/-- Insertion keeps the canonical form. -/
theorem Memory.insert_wf {m : List Host.Cell} (hm : Memory.wf m) {a : Nat} (ha : a < 64) (b : Byte) :
    Memory.wf (Memory.insert m a b) := by
  constructor
  · have hp := hm.1
    clear hm
    induction m with
    | nil => simp [Memory.insert]
    | cons c m ih =>
      rw [List.pairwise_cons] at hp
      unfold Memory.insert
      split
      · rename_i hlt
        rw [List.pairwise_cons, List.pairwise_cons]
        refine ⟨fun d hd => ?_, hp⟩
        rcases List.mem_cons.1 hd with rfl | hd
        · exact hlt
        · exact Nat.lt_trans hlt (hp.1 d hd)
      · split
        · rename_i heq
          rw [List.pairwise_cons]
          exact ⟨fun d hd => heq ▸ hp.1 d hd, hp.2⟩
        · rw [List.pairwise_cons]
          refine ⟨fun d hd => ?_, ih hp.2⟩
          rcases Memory.mem_insert hd with rfl | hd
          · show c.1 < a
            omega
          · exact hp.1 d hd
  · intro c hc
    rcases Memory.mem_insert hc with rfl | hc
    · exact ha
    · exact hm.2 c hc

/-! ### One byte of the state -/

@[simp] theorem readByte_writeByte_same (s : State) (a : Nat) (b : Byte) : (s.writeByte a b).readByte a = b := by
  simp [State.readByte, Memory.lookup_insert_same]

theorem readByte_writeByte_ne (s : State) {a a' : Nat} (h : a' ≠ a) (b : Byte) :
    (s.writeByte a b).readByte a' = s.readByte a' := by
  simp [State.readByte, Memory.lookup_insert_ne _ h]

/-- A byte depends on the buffer and the draw only. -/
theorem readByte_congr {s t : State} (hb : t.buf = s.buf) (hd : t.draw = s.draw) (a : Nat) :
    t.readByte a = s.readByte a := by
  simp [State.readByte, hb, hd]

@[simp] theorem readByte_writeReg (s : State) (r : RegId) (v a : Nat) : (s.writeReg r v).readByte a = s.readByte a := rfl
@[simp] theorem readByte_setCC (s : State) (c : CompletionCode) (a : Nat) : (s.setCC c).readByte a = s.readByte a := rfl
@[simp] theorem readByte_setEq (s : State) (b : Bool) (a : Nat) : (s.setEq b).readByte a = s.readByte a := rfl
@[simp] theorem readByte_withPort (s : State) (l : List Input) (a : Nat) : (s.withPort l).readByte a = s.readByte a := rfl
@[simp] theorem readByte_withReply (s : State) (r : HostReply) (a : Nat) : (s.withReply r).readByte a = s.readByte a := rfl

/-! ### Blocks of bytes -/

/-- An n-byte integer is below 2^(8n). -/
theorem memRead_lt (s : State) (a n : Nat) : s.memRead a n < 2 ^ (8 * n) := by
  induction n generalizing a with
  | zero => simp [State.memRead]
  | succ n ih =>
    have hb : (s.readByte a).toNat < 2 ^ 8 := (s.readByte a).isLt
    have hr := ih (a + 1)
    have hp : 2 ^ (8 * (n + 1)) = 2 ^ 8 * 2 ^ (8 * n) := by rw [← Nat.pow_add]; congr 1; omega
    simp only [State.memRead, hp]
    have : 2 ^ 8 * s.memRead (a + 1) n + 2 ^ 8 ≤ 2 ^ 8 * 2 ^ (8 * n) := by
      rw [← Nat.mul_succ]
      exact Nat.mul_le_mul_left _ hr
    omega

/-- A block read depends on the bytes it reads only. -/
theorem memRead_congr {s t : State} {a n : Nat} (h : ∀ j, a ≤ j → j < a + n → t.readByte j = s.readByte j) :
    t.memRead a n = s.memRead a n := by
  induction n generalizing a with
  | zero => rfl
  | succ n ih =>
    simp only [State.memRead]
    rw [h a (Nat.le_refl _) (by omega), ih fun j h1 h2 => h j (by omega) (by omega)]

/-- What a block write leaves: only the buffer can differ. -/
theorem memWrite_fields (s : State) (a n v : Nat) :
    s.memWrite a n v = { s with buf := (s.memWrite a n v).buf } := by
  induction n generalizing s a v with
  | zero => rfl
  | succ n ih =>
    simp only [State.memWrite]
    rw [ih]
    rfl

@[simp] theorem memWrite_regs (s : State) (a n v : Nat) : (s.memWrite a n v).regs = s.regs := by rw [memWrite_fields]
@[simp] theorem memWrite_cc (s : State) (a n v : Nat) : (s.memWrite a n v).cc = s.cc := by rw [memWrite_fields]
@[simp] theorem memWrite_eqFlag (s : State) (a n v : Nat) : (s.memWrite a n v).eqFlag = s.eqFlag := by rw [memWrite_fields]
@[simp] theorem memWrite_draw (s : State) (a n v : Nat) : (s.memWrite a n v).draw = s.draw := by rw [memWrite_fields]
@[simp] theorem memWrite_port (s : State) (a n v : Nat) : (s.memWrite a n v).port = s.port := by rw [memWrite_fields]
@[simp] theorem memWrite_reply (s : State) (a n v : Nat) : (s.memWrite a n v).reply = s.reply := by rw [memWrite_fields]

/-- Bytes outside the block stay. -/
theorem readByte_memWrite_outside (s : State) (a n v : Nat) {j : Nat} (h : j < a ∨ a + n ≤ j) :
    (s.memWrite a n v).readByte j = s.readByte j := by
  induction n generalizing s a v with
  | zero => rfl
  | succ n ih =>
    simp only [State.memWrite]
    rw [ih _ _ _ (by omega), readByte_writeByte_ne _ (by omega)]

/-- Byte a + j of the block holds bits 8j+7..8j of the integer written (spec/00_scope.md R8). -/
theorem readByte_memWrite_inside (s : State) (a n v j : Nat) (h : j < n) :
    (s.memWrite a n v).readByte (a + j) = BitVec.ofNat 8 (v / 2 ^ (8 * j)) := by
  induction n generalizing s a v j with
  | zero => omega
  | succ n ih =>
    simp only [State.memWrite]
    cases j with
    | zero =>
      rw [readByte_memWrite_outside _ _ _ _ (by omega), Nat.add_zero, readByte_writeByte_same]
      simp
    | succ j =>
      have ha : a + (j + 1) = a + 1 + j := by omega
      rw [ha, ih _ _ _ _ (by omega), Nat.div_div_eq_div_mul, ← Nat.pow_add]
      congr 3
      omega

/-- A block write inside the buffer keeps the canonical form. -/
theorem memWrite_wf (s : State) (a n v : Nat) (h : a + n ≤ 64) (hs : Memory.wf s.buf) :
    Memory.wf (s.memWrite a n v).buf := by
  induction n generalizing s a v with
  | zero => exact hs
  | succ n ih =>
    simp only [State.memWrite]
    exact ih _ _ _ (by omega) (Memory.insert_wf hs (by omega) _)

/-- Writing an integer that fits and reading the block gives it back. -/
theorem memRead_memWrite (s : State) (a n v : Nat) (h : v < 2 ^ (8 * n)) : (s.memWrite a n v).memRead a n = v := by
  induction n generalizing s a v with
  | zero => simp at h; simp [State.memRead, h]
  | succ n ih =>
    have hp : 2 ^ (8 * (n + 1)) = 2 ^ 8 * 2 ^ (8 * n) := by rw [← Nat.pow_add]; congr 1; omega
    have hd : v / 2 ^ 8 < 2 ^ (8 * n) := Nat.div_lt_of_lt_mul (hp ▸ h)
    simp only [State.memRead, State.memWrite]
    rw [readByte_memWrite_outside _ _ _ _ (by omega), readByte_writeByte_same, ih _ _ _ hd, BitVec.toNat_ofNat]
    exact Nat.mod_add_div v (2 ^ 8)

/-- The empty buffer is in canonical form. -/
theorem reset_buf_wf : Memory.wf State.reset.buf := by decide

end Sys2Proof.Machine
end

