-- ==== Sys2Proof/Laws/Ops.lean ====
section
/-! SUPPORT. What each shared operation can do, and each command's meaning as operations: proofs cite these and do not unfold. -/

namespace Sys2Proof.Machine

/-! ### Registers -/

set_option exponentiation.threshold 300 in
theorem readReg_lt (s : State) (r : RegId) : s.readReg r < 2 ^ 261 := (s.regs[r]).isLt

set_option exponentiation.threshold 300 in
theorem readReg_writeReg_same (s : State) (r : RegId) (v : Nat) : (s.writeReg r v).readReg r = v % 2 ^ 261 := by
  have h : (s.regs.set r (BitVec.ofNat 261 v))[r] = BitVec.ofNat 261 v := Vector.getElem_set_self r.isLt
  unfold State.readReg State.writeReg
  rw [h, BitVec.toNat_ofNat]

theorem readReg_writeReg_ne (s : State) {r r' : RegId} (h : r' ≠ r) (v : Nat) :
    (s.writeReg r v).readReg r' = s.readReg r' := by
  have hv : r.val ≠ r'.val := fun e => h (Fin.ext e.symm)
  simp [State.readReg, State.writeReg, Vector.getElem_set_ne _ _ hv]

@[simp] theorem readReg_setCC (s : State) (c : CompletionCode) (r : RegId) : (s.setCC c).readReg r = s.readReg r := rfl
@[simp] theorem readReg_setEq (s : State) (b : Bool) (r : RegId) : (s.setEq b).readReg r = s.readReg r := rfl
@[simp] theorem readReg_withPort (s : State) (l : List Input) (r : RegId) : (s.withPort l).readReg r = s.readReg r := rfl
@[simp] theorem readReg_withReply (s : State) (x : HostReply) (r : RegId) : (s.withReply x).readReg r = s.readReg r := rfl
@[simp] theorem readReg_memWrite (s : State) (a n v : Nat) (r : RegId) : (s.memWrite a n v).readReg r = s.readReg r := by
  simp [State.readReg]

/-! ### Ending a command -/

theorem complete_next {s t : State} (h : complete s = .next t) : t = s.setCC .ok := by
  injection h with h; exact h.symm

theorem raise_next {c : CompletionCode} {s t : State} (h : raise c s = .next t) : t = s.setCC c := by
  injection h with h; exact h.symm

/-! ### The datapath -/

/-- `CondSubL` gives back its argument or the argument less L, and which. -/
theorem condSubL_cases (t : Nat) :
    (Const.L ≤ t ∧ condSubL t = t - Const.L) ∨ (t < Const.L ∧ condSubL t = t) := by
  by_cases h : Const.L ≤ t
  · exact .inl ⟨h, by rw [condSubL, if_pos h]⟩
  · exact .inr ⟨Nat.lt_of_not_le h, by rw [condSubL, if_neg h]⟩

theorem redcRounds_zero (p : Nat) : redcRounds 0 p = p := rfl

theorem redcRounds_succ (n p : Nat) : redcRounds (n + 1) p = redcRound (redcRounds n p) := rfl

/-! ### Every constant of the ROM, and no other -/

/-- A legal constant id names a constant of spec/10_state.md R15. -/
theorem constOperand_legal (k : BitVec 8) (h : k.toNat ≤ 4) : ∃ v, constOperand k = some v := by
  have hk : k = 0#8 ∨ k = 1#8 ∨ k = 2#8 ∨ k = 3#8 ∨ k = 4#8 := by
    revert k; decide
  rcases hk with rfl | rfl | rfl | rfl | rfl <;> exact ⟨_, rfl⟩

/-! ### Each command's meaning as operations -/

theorem exec_add (rd ra rb : RegId) (s : State) :
    exec (.add rd ra rb) s = complete (s.writeReg rd (addValue (s.readReg ra) (s.readReg rb))) := rfl

theorem exec_sub (rd ra rb : RegId) (s : State) :
    exec (.sub rd ra rb) s = complete (s.writeReg rd (subValue (s.readReg ra) (s.readReg rb))) := rfl

theorem exec_mul (rd ra rb : RegId) (s : State) :
    exec (.mul rd ra rb) s = complete (s.writeReg rd (mulValue (s.readReg ra) (s.readReg rb))) := rfl

theorem exec_sqr (rd ra : RegId) (s : State) :
    exec (.sqr rd ra) s = complete (s.writeReg rd (mulValue (s.readReg ra) (s.readReg ra))) := rfl

theorem exec_mmul (rd ra rb : RegId) (s : State) :
    exec (.mmul rd ra rb) s = complete (s.writeReg rd (mmulValue (s.readReg ra) (s.readReg rb))) := rfl

theorem exec_msqr (rd ra : RegId) (s : State) :
    exec (.msqr rd ra) s = complete (s.writeReg rd (mmulValue (s.readReg ra) (s.readReg ra))) := rfl

theorem exec_tomont (rd ra : RegId) (s : State) :
    exec (.tomont rd ra) s = complete (s.writeReg rd (tomontValue (s.readReg ra))) := rfl

theorem exec_frommont (rd ra : RegId) (s : State) :
    exec (.frommont rd ra) s = complete (s.writeReg rd (frommontValue (s.readReg ra))) := rfl

theorem exec_fbw_wide (rd : RegId) (s : State) :
    exec (.fbw rd 64#8) s = complete (s.writeReg rd (wideValue (s.memRead 0 64))) := rfl

theorem exec_fbw_other (rd : RegId) {len : BitVec 8} (h : len ≠ 64#8) (s : State) :
    exec (.fbw rd len) s = raise .lengthMismatch s := by
  have hl : ¬lenOperand len = 64 := fun e => h (BitVec.eq_of_toNat_eq e)
  simp [exec, execFbw, hl]

theorem exec_tob (ra : RegId) (s : State) :
    exec (.tob ra) s = complete (s.memWrite 0 32 (s.readReg ra % 2 ^ 256)) := rfl

theorem exec_fb (rd : RegId) (s : State) : exec (.fb rd) s = complete (s.writeReg rd (s.memRead 0 32)) := rfl

theorem exec_ldc_legal {k : BitVec 8} {v : Nat} (h : constOperand k = some v) (rd : RegId) (s : State) :
    exec (.ldc rd k) s = complete (s.writeReg rd v) := by
  simp [exec, execLdc, h]

theorem exec_eq (ra rb : RegId) (s : State) :
    exec (.eq ra rb) s = complete (s.setEq (equalFlag (s.readReg ra) (s.readReg rb))) := rfl

/-- Everything a command can do: write its destination register, or 32 bytes, or the equality flag, and end with OK; or end with a
failure code and do nothing else. -/
theorem exec_cases (i : Instr) (s : State) :
    (∃ rd v, i.dest? = some rd ∧ exec i s = complete (s.writeReg rd v)) ∨
    (∃ ra, i = .tob ra ∧ exec i s = complete (s.memWrite 0 32 (s.readReg ra % 2 ^ 256))) ∨
    (∃ ra rb, i = .eq ra rb ∧ exec i s = complete (s.setEq (equalFlag (s.readReg ra) (s.readReg rb)))) ∨
    (∃ rd len, i = .fbw rd len ∧ len ≠ 64#8 ∧ exec i s = raise .lengthMismatch s) ∨
    (∃ rd k, i = .ldc rd k ∧ constOperand k = none ∧ exec i s = raise .illegalCommand s) := by
  cases i with
  | add rd ra rb => exact .inl ⟨rd, _, rfl, rfl⟩
  | sub rd ra rb => exact .inl ⟨rd, _, rfl, rfl⟩
  | mul rd ra rb => exact .inl ⟨rd, _, rfl, rfl⟩
  | sqr rd ra => exact .inl ⟨rd, _, rfl, rfl⟩
  | mmul rd ra rb => exact .inl ⟨rd, _, rfl, rfl⟩
  | msqr rd ra => exact .inl ⟨rd, _, rfl, rfl⟩
  | tomont rd ra => exact .inl ⟨rd, _, rfl, rfl⟩
  | frommont rd ra => exact .inl ⟨rd, _, rfl, rfl⟩
  | fbw rd len =>
    by_cases h : len = 64#8
    · subst h
      exact .inl ⟨rd, _, rfl, exec_fbw_wide rd s⟩
    · exact .inr (.inr (.inr (.inl ⟨rd, len, rfl, h, exec_fbw_other rd h s⟩)))
  | tob ra => exact .inr (.inl ⟨ra, rfl, rfl⟩)
  | fb rd => exact .inl ⟨rd, _, rfl, rfl⟩
  | ldc rd k =>
    cases h : constOperand k with
    | some v => exact .inl ⟨rd, v, rfl, exec_ldc_legal h rd s⟩
    | none => exact .inr (.inr (.inr (.inr ⟨rd, k, rfl, h, by simp [exec, execLdc, h]⟩)))
  | eq ra rb => exact .inr (.inr (.inl ⟨ra, rb, rfl, rfl⟩))

end Sys2Proof.Machine
end

