-- ==== Sys2Proof/Laws/Limbs.lean ====
section
/-! SUPPORT. The small lemmas of the limb level: one equation per function, and what a limb vector stands for. -/

namespace Sys2Proof.Machine

theorem limb_lt (v i : Nat) : limb v i < 2 ^ 29 := Nat.mod_lt _ (by decide)

@[simp] theorem val_nil : val [] = 0 := rfl

@[simp] theorem val_cons (a : Nat) (as : List Nat) : val (a :: as) = a + 2 ^ 29 * val as := rfl

/-- Appending a limb adds it at its weight. -/
theorem val_append_singleton (as : List Nat) (a : Nat) : val (as ++ [a]) = val as + 2 ^ (29 * as.length) * a := by
  induction as with
  | nil => simp
  | cons b bs ih =>
    have hp : 2 ^ (29 * (b :: bs).length) = 2 ^ 29 * 2 ^ (29 * bs.length) := by
      rw [← Nat.pow_add, List.length_cons]; congr 1; omega
    rw [List.cons_append, val_cons, val_cons, ih, hp, Nat.mul_add, Nat.mul_assoc, Nat.add_assoc]

/-- The first n limbs of v stand for v modulo 2^(29n). -/
theorem val_map_limb (v n : Nat) : val ((List.range n).map (limb v)) = v % 2 ^ (29 * n) := by
  induction n with
  | zero => simp [Nat.mod_one]
  | succ n ih =>
    have hp : 2 ^ (29 * (n + 1)) = 2 ^ (29 * n) * 2 ^ 29 := by rw [← Nat.pow_add]; congr 1
    rw [List.range_succ, List.map_append, List.map_singleton, val_append_singleton, ih, List.length_map, List.length_range,
      hp, Nat.mod_mul]
    rfl

set_option exponentiation.threshold 300 in
/-- The nine limbs of a register value stand for it (spec/00_scope.md R7). -/
theorem val_limbs {v : Nat} (h : v < 2 ^ 261) : val (limbs v) = v :=
  (val_map_limb v 9).trans (Nat.mod_eq_of_lt h)

@[simp] theorem limbs_length (v : Nat) : (limbs v).length = 9 := by simp [limbs]

theorem limbs_lt {v l : Nat} (h : l ∈ limbs v) : l < 2 ^ 29 := by
  obtain ⟨i, -, rfl⟩ := List.mem_map.1 h
  exact limb_lt v i

theorem limbAddFrom_cons (c x y : Nat) (xs ys : List Nat) :
    limbAddFrom c (x :: xs) (y :: ys) =
      ((x + y + c) % 2 ^ 29 :: (limbAddFrom ((x + y + c) / 2 ^ 29) xs ys).1, (limbAddFrom ((x + y + c) / 2 ^ 29) xs ys).2) := rfl

theorem limbSubFrom_cons (bw x y : Nat) (xs ys : List Nat) :
    limbSubFrom bw (x :: xs) (y :: ys) =
      ((((x : Int) - y - bw) % 2 ^ 29).toNat :: (limbSubFrom (if (x : Int) - y - bw < 0 then 1 else 0) xs ys).1,
        (limbSubFrom (if (x : Int) - y - bw < 0 then 1 else 0) xs ys).2) := rfl

end Sys2Proof.Machine
end

