-- ==== Sys2Proof/Laws/PerInstr.lean ====
section
/-! SUPPORT. The family `TableRow`: the word of every well-formed command matches a row of the opcode table that bears its
mnemonic (spec/30_encoding.md R48). One lemma per constructor. -/

namespace Sys2Proof.Laws.TableRow

/-- Some row with the command's mnemonic matches the command's word. -/
def Statement (i : Instr) : Prop :=
  i.wellFormed = true → (opcodeTable.any fun row => row.mnemonic == i.mnemonic && row.fits (encode i)) = true

theorem add (rd ra rb : RegId) : Statement (.add rd ra rb) := by
  intro _; revert rd ra rb; decide +kernel

theorem sub (rd ra rb : RegId) : Statement (.sub rd ra rb) := by
  intro _; revert rd ra rb; decide +kernel

theorem mul (rd ra rb : RegId) : Statement (.mul rd ra rb) := by
  intro _; revert rd ra rb; decide +kernel

theorem sqr (rd ra : RegId) : Statement (.sqr rd ra) := by
  intro _; revert rd ra; decide +kernel

theorem mmul (rd ra rb : RegId) : Statement (.mmul rd ra rb) := by
  intro _; revert rd ra rb; decide +kernel

theorem msqr (rd ra : RegId) : Statement (.msqr rd ra) := by
  intro _; revert rd ra; decide +kernel

theorem tomont (rd ra : RegId) : Statement (.tomont rd ra) := by
  intro _; revert rd ra; decide +kernel

theorem frommont (rd ra : RegId) : Statement (.frommont rd ra) := by
  intro _; revert rd ra; decide +kernel

theorem fbw (rd : RegId) (len : BitVec 8) : Statement (.fbw rd len) := by
  intro _; revert rd len; decide +kernel

theorem tob (ra : RegId) : Statement (.tob ra) := by
  intro _; revert ra; decide +kernel

theorem fb (rd : RegId) : Statement (.fb rd) := by
  intro _; revert rd; decide +kernel

theorem ldc (rd : RegId) (k : BitVec 8) : Statement (.ldc rd k) := by
  unfold Statement; revert rd k; decide +kernel

theorem eq (ra rb : RegId) : Statement (.eq ra rb) := by
  intro _; revert ra rb; decide +kernel

end Sys2Proof.Laws.TableRow
end

