-- ==== Sys2Proof/Laws/Step.lean ====
section
/-! SUPPORT. What one step can do, said once. -/

namespace Sys2Proof.Machine

/-! ### The port's window -/

@[simp] theorem hostOp_of_access (op : HostOp) : op.access.hostOp? = some op := by
  cases op with
  | issue w => simp [HostOp.access, WindowAccess.hostOp?]
  | rstatus => simp [HostOp.access, WindowAccess.hostOp?]
  | rbuf j =>
    have hj : j.val < 64 := j.isLt
    simp [HostOp.access, WindowAccess.hostOp?, bufIndex, hj]
  | wbuf j v =>
    have hj : j.val < 64 := j.isLt
    simp [HostOp.access, WindowAccess.hostOp?, bufIndex, hj]

/-! ### One step -/

theorem step_of_empty {s : State} (h : s.port = []) : step s = .next s := by
  simp [step, h, idle]

theorem step_of_reset {s : State} {rest : List Input} (h : s.port = .reset :: rest) :
    step s = .next (resetEvent s rest) := by
  simp [step, h]

theorem step_of_hostOp {s : State} {a : WindowAccess} {rest : List Input} {op : HostOp}
    (h : s.port = .access a :: rest) (ha : a.hostOp? = some op) : step s = hostOperation op (s.withPort rest) := by
  simp [step, h, ha]

theorem step_of_outside {s : State} {a : WindowAccess} {rest : List Input}
    (h : s.port = .access a :: rest) (ha : a.hostOp? = none) : step s = .refused .outsideWindow := by
  simp [step, h, ha]

/-- A command that completes gives back its code. -/
theorem afterCommand_complete (s : State) :
    afterCommand (complete s) = .next ((s.setCC .ok).withReply (.issued .ok)) := rfl

theorem afterCommand_raise (c : CompletionCode) (s : State) :
    afterCommand (raise c s) = .next ((s.setCC c).withReply (.issued c)) := rfl

theorem issueWord_command {w : Word} {i : Instr} (h : decode w = .command i) (s : State) :
    issueWord w s = afterCommand (exec i s) := by
  simp [issueWord, h]

theorem issueWord_illegal {w : Word} {why : Illegal} (h : decode w = .illegal why) (s : State) :
    issueWord w s = .next ((s.setCC .illegalCommand).withReply (.issued .illegalCommand)) := by
  simp [issueWord, h, issueIllegal, afterCommand_raise]

/-- A step whose oldest entry is `H_ISSUE(w)` issues w. -/
theorem step_of_issuesNext {s : State} {w : Word} {rest : List Input} (h : s.issuesNext w rest) :
    step s = issueWord w (s.withPort rest) :=
  step_of_hostOp (op := .issue w) h (hostOp_of_access (.issue w))

/-- A step whose oldest entry is a word that decodes to a command carries the command out. -/
theorem step_of_command {s t : State} {w : Word} {i : Instr} {rest : List Input} (h : s.issuesNext w rest)
    (hd : decode w = .command i) (he : exec i (s.withPort rest) = .next t) :
    step s = .next (t.withReply (.issued t.cc)) := by
  rw [step_of_issuesNext h, issueWord_command hd, he]
  rfl

/-- A step whose oldest entry is `H_WBUF(j, v)` writes the byte. -/
theorem step_of_hostWrite {s : State} {j : Nat} (hj : j < 64) {v : Byte} {rest : List Input}
    (h : s.port = .access (.write (0x40 + j) 8 v.toNat) :: rest) :
    step s = .next (hostWriteByte ⟨j, hj⟩ v (s.withPort rest)) :=
  step_of_hostOp (op := .wbuf ⟨j, hj⟩ v) h (hostOp_of_access (.wbuf ⟨j, hj⟩ v))

/-- A step whose oldest entry is `H_RBUF(j)` reads the byte. -/
theorem step_of_hostRead {s : State} {j : Nat} (hj : j < 64) {rest : List Input}
    (h : s.port = .access (.read (0x40 + j) 8) :: rest) :
    step s = .next (hostReadByte ⟨j, hj⟩ (s.withPort rest)) :=
  step_of_hostOp (op := .rbuf ⟨j, hj⟩) h (hostOp_of_access (.rbuf ⟨j, hj⟩))

/-- A step whose oldest entry is `H_RSTATUS()` reads the status word. -/
theorem step_of_statusRead {s : State} {rest : List Input} (h : s.port = .access (.read 0x04 32) :: rest) :
    step s = .next (hostReadStatus (s.withPort rest)) :=
  step_of_hostOp (op := .rstatus) h (hostOp_of_access .rstatus)

/-- Everything a step that gives a next state can be: idle, a reset event, a host read or write, a rejected word, or a command. -/
theorem step_cases {s t : State} (h : step s = .next t) :
    (s.port = [] ∧ t = s) ∨
    (∃ rest, s.port = .reset :: rest ∧ t = resetEvent s rest) ∨
    (∃ a rest, s.port = .access a :: rest ∧
      ((a.hostOp? = some .rstatus ∧ t = hostReadStatus (s.withPort rest)) ∨
       (∃ j, a.hostOp? = some (.rbuf j) ∧ t = hostReadByte j (s.withPort rest)) ∨
       (∃ j v, a.hostOp? = some (.wbuf j v) ∧ t = hostWriteByte j v (s.withPort rest)) ∨
       (∃ w why, a.hostOp? = some (.issue w) ∧ decode w = .illegal why ∧
         t = ((s.withPort rest).setCC .illegalCommand).withReply (.issued .illegalCommand)) ∨
       (∃ w i, a.hostOp? = some (.issue w) ∧ decode w = .command i ∧
         afterCommand (exec i (s.withPort rest)) = .next t))) := by
  cases hp : s.port with
  | nil =>
    rw [step_of_empty hp] at h
    injection h with h
    exact .inl ⟨rfl, h.symm⟩
  | cons x rest =>
    cases x with
    | reset =>
      rw [step_of_reset hp] at h
      injection h with h
      exact .inr (.inl ⟨rest, rfl, h.symm⟩)
    | access a =>
      refine .inr (.inr ⟨a, rest, rfl, ?_⟩)
      cases ha : a.hostOp? with
      | none => rw [step_of_outside hp ha] at h; cases h
      | some op =>
        rw [step_of_hostOp hp ha] at h
        cases op with
        | rstatus => injection h with h; exact .inl ⟨rfl, h.symm⟩
        | rbuf j => injection h with h; exact .inr (.inl ⟨j, rfl, h.symm⟩)
        | wbuf j v => injection h with h; exact .inr (.inr (.inl ⟨j, v, rfl, h.symm⟩))
        | issue w =>
          change issueWord w (s.withPort rest) = .next t at h
          cases hd : decode w with
          | illegal why =>
            rw [issueWord_illegal hd] at h
            injection h with h
            exact .inr (.inr (.inr (.inl ⟨w, why, rfl, hd, h.symm⟩)))
          | command i =>
            rw [issueWord_command hd] at h
            exact .inr (.inr (.inr (.inr ⟨w, i, rfl, hd, h⟩)))

end Sys2Proof.Machine
end

