-- ==== Sys2Proof/Tests/Slice0.lean ====
section
/-! SUPPORT. The model's own tests. Expected values come from spec/95_test_vectors.md (named V-…) or from the rule cited. The second
part gives, for every statement with hypotheses, a state and operands that meet them. -/

set_option Elab.async false

namespace Sys2Proof.Tests

open Sys2Proof.Machine

/-! ### Small states -/

/-- A state with these values in s0 and s1, 0x55 in s7, and these bytes, port entries. -/
def small (a b : Nat) (buf : List Host.Cell) (port : List Input) : State where
  regs := #v[BitVec.ofNat 261 a, BitVec.ofNat 261 b, 0, 0, 0, 0, 0, 0x55]
  buf := buf
  cc := .ok
  eqFlag := false
  draw := 0
  port := port
  reply := none

/-- All 64 bytes of the buffer from one function. -/
def bytes (f : Nat → Nat) : List Host.Cell := (List.range 64).map fun j => (j, BitVec.ofNat 8 (f j))

/-- A register of the next state, if there is one. -/
def regAfter (o : Host.Outcome State Fault Refusal) (r : RegId) : Option Nat :=
  match o with
  | .next t => some (t.readReg r)
  | _ => none

/-- The status word of the next state, if there is one. -/
def statusAfter (o : Host.Outcome State Fault Refusal) : Option Word :=
  match o with
  | .next t => some t.statusWord
  | _ => none

/-- Some bytes of the next state, if there is one. -/
def bytesAfter (o : Host.Outcome State Fault Refusal) (as : List Nat) : Option (List Byte) :=
  match o with
  | .next t => some (as.map t.readByte)
  | _ => none

/-- What the host got back, if there is a next state. -/
def replyAfter (o : Host.Outcome State Fault Refusal) : Option (Option HostReply) :=
  match o with
  | .next t => some t.reply
  | _ => none

/-- There is a next state. -/
def goesOn (o : Host.Outcome State Fault Refusal) : Bool :=
  match o with
  | .next _ => true
  | _ => false

/-- `H_ISSUE(w)` as a port entry. -/
def issue (w : Word) : Input := .access (.write 0x00 32 w.toNat)

/-- X and Y of spec/95_test_vectors.md. -/
def valueX : Nat := 0x0123456789abcdef0123456789abcdef0123456789abcdef0123456789abcdef
def valueY : Nat := 0x0fedcba9876543210fedcba9876543210fedcba9876543210fedcba987654321
def valueMax : Nat := 0x1fffffffffffffffffffffffffffffffffffffffffffffffffffffffffffffffff

/-! ### Well-formedness -/

theorem test_wellFormed_refuses_constant_five : (Instr.ldc 0 5).wellFormed = false := by decide
theorem test_wellFormed_takes_constant_four : (Instr.ldc 0 4).wellFormed = true := by decide

/-! ### Decoding: words of spec/95_test_vectors.md 2.12, one for each constructor -/

theorem test_decode_add : decode 0x01201000 = .command (.add 2 0 1) := by decide
theorem test_decode_sub : decode 0x02777000 = .command (.sub 7 7 7) := by decide
theorem test_decode_mul : decode 0x03012000 = .command (.mul 0 1 2) := by decide
theorem test_decode_sqr : decode 0x04100000 = .command (.sqr 1 0) := by decide
theorem test_decode_mmul : decode 0x05345000 = .command (.mmul 3 4 5) := by decide
theorem test_decode_msqr : decode 0x06700000 = .command (.msqr 7 0) := by decide
theorem test_decode_tomont : decode 0x07100000 = .command (.tomont 1 0) := by decide
theorem test_decode_frommont : decode 0x08010000 = .command (.frommont 0 1) := by decide
theorem test_decode_fbw : decode 0x0970003F = .command (.fbw 7 63) := by decide
theorem test_decode_tob : decode 0x0A070000 = .command (.tob 7) := by decide
theorem test_decode_fb : decode 0x0B300000 = .command (.fb 3) := by decide
theorem test_decode_ldc : decode 0x0C700004 = .command (.ldc 7 4) := by decide
theorem test_decode_eq : decode 0x0D067000 = .command (.eq 6 7) := by decide

/-- V-D17 to V-D35: every illegal word listed there. -/
theorem test_decode_illegal :
    ([0x00000000, 0xFFFFFFFF, 0x0E000000, 0x01201001, 0x01201100, 0x01801000, 0x01281000, 0x01208000, 0x04101000, 0x09010040,
      0x09800020, 0x0A100000, 0x0A080000, 0x0B300001, 0x0C000005, 0x0C0000FF, 0x0D100000, 0x0D088000, 0x10000000] :
      List Word).all (fun w => (decode w).command?.isNone) = true := by decide

/-- R54's example, and the word as the opcode table numbers it. -/
theorem test_decode_bytes : (decodeBytes [0x00, 0x10, 0x20, 0x01]).1 = .command (.add 2 0 1) := by decide
theorem test_decodeTableWord : decodeTableWord 32 0x01201000 = some (.add 2 0 1) := by decide

/-! ### One step of each command -/

theorem test_add_wraps_at_261_bits :  -- V-A17
    regAfter (exec (.add 2 0 1) (small valueMax (Const.L + 1) [] [])) 2 = some 0 := by decide +kernel
theorem test_add_keeps_carry_for_comparison :  -- V-A15
    regAfter (exec (.add 2 0 1) (small valueMax 1 [] [])) 2
      = some 0x1fefffffffffffffffffffffffffffffffeb2106215d086329a7ed9ce5a30a2c13 := by decide +kernel
theorem test_sub_borrows :  -- V-B6
    regAfter (exec (.sub 2 0 1) (small valueX valueY [] [])) 2
      = some 0x013579be02468acdf13579be02468ace0614739ca53e27a44947dcd85f3c5ebb := by decide +kernel
theorem test_sub_wraps :  -- V-B14
    regAfter (exec (.sub 2 0 1) (small 0 (2 ^ 256 - 1) [] [])) 2
      = some 0x1f1000000000000000000000000000000014def9dea2f79cd65812631a5cf5d3ee := by decide +kernel
theorem test_mul :  -- V-M4
    regAfter (exec (.mul 2 0 1) (small valueX valueY [] [])) 2
      = some 0x08e727e8ed54e7d1e9daab69447142134a6302ac045bd797fd22396ecba8e182 := by decide +kernel
theorem test_mul_largest_operands :  -- V-M11
    regAfter (exec (.mul 0 0 1) (small valueMax valueMax [] [])) 0
      = some 0x05046df0c268f73bb1cf485fd6f99780f4019a278a498f5d414eecd6c2af5113 := by decide +kernel
theorem test_sqr :  -- V-Q4
    regAfter (exec (.sqr 0 0) (small valueX 0 [] [])) 0
      = some 0x00185dfe5e5888a07e4bd68288a79b33d43d69c6cbd02dd4574521a6abe2bfbc := by decide +kernel
theorem test_mmul :  -- V-N4
    regAfter (exec (.mmul 2 0 1) (small valueX valueY [] [])) 2
      = some 0x0e68e139f626691b2e7eabc96dfe6aa67942022d416adb29868cdcaa26dd16f8 := by decide +kernel
theorem test_mmul_out_of_domain :  -- V-N12
    regAfter (exec (.mmul 2 0 1) (small valueMax valueMax [] [])) 2
      = some 0x1ff64edb637937f48c1b0a73aa1c7fd1b5e8b452082edf39a46f2fb874a7d153f3 := by decide +kernel
theorem test_msqr :  -- V-P4
    regAfter (exec (.msqr 1 0) (small valueX 0 [] [])) 1
      = some 0x0a91dc3da80a1c3882837bffa569f44646d6674e6e899fb87e4346ecc0d0a92d := by decide +kernel
theorem test_tomont :  -- V-T4
    regAfter (exec (.tomont 1 0) (small valueX 0 [] [])) 1
      = some 0x05c43e97aa5a75c3a33a4fcb2cf14ad80c211d3ab395d41894e2a4cfcbfc22ad := by decide +kernel
theorem test_frommont :  -- V-T15
    regAfter (exec (.frommont 1 0) (small valueMax 0 [] [])) 1
      = some 0x09b1249c86c80b73e4f58c55e3802e4a174badf7d120c65b90d0478b582eac0c := by decide +kernel
theorem test_fbw :  -- V-W5
    regAfter (exec (.fbw 2 64) (small 0 0 (bytes fun j => j) [])) 2
      = some 0x0572d0e474b5e0da7a932112c3d46159cce628540db62350a0372df082623c7a := by decide +kernel
theorem test_fbw_wrong_length :  -- V-W9
    regAfter (exec (.fbw 7 63) (small 0 0 (bytes fun _ => 255) [])) 7 = some 0x55 ∧
    statusAfter (exec (.fbw 7 63) (small 0 0 (bytes fun _ => 255) [])) = some 1 := by decide +kernel
theorem test_tob_of_L :  -- V-S3
    bytesAfter (exec (.tob 0) (small Const.L 0 (bytes fun _ => 0xAA) [])) [0, 1, 15, 16, 31, 32, 63]
      = some [0xed, 0xd3, 0x14, 0x00, 0x10, 0xAA, 0xAA] := by decide +kernel
theorem test_tob_truncates :  -- V-S8
    bytesAfter (exec (.tob 0) (small 0x01efffffffffffffffffffffffffffffffeb2106215d086329a7ed9ce5a30a2c11 0 [] [])) [0, 1, 30, 31]
      = some [0x11, 0x2c, 0xff, 0xef] := by decide +kernel
theorem test_fb :  -- V-S13
    regAfter (exec (.fb 2) (small 0 0 (bytes fun j => j) [])) 2
      = some 0x1f1e1d1c1b1a191817161514131211100f0e0d0c0b0a09080706050403020100 := by decide +kernel
/-- R95 and R101 on a buffer whose low half is 5 and whose high half is L (log entry 20): `fb` and `fbw` store the same value although
bytes 32 to 63 are not all zero. -/
theorem test_fb_and_fbw_agree_on_high_half_L :
    regAfter (exec (.fb 2) (small 0 0 (bytes fun j => (5 + 2 ^ 256 * Const.L) / 2 ^ (8 * j) % 256) [])) 2 = some 5 ∧
    regAfter (exec (.fbw 2 64) (small 0 0 (bytes fun j => (5 + 2 ^ 256 * Const.L) / 2 ^ (8 * j) % 256) [])) 2 = some 5 ∧
    (small 0 0 (bytes fun j => (5 + 2 ^ 256 * Const.L) / 2 ^ (8 * j) % 256) []).readByte 63 = 0x10 := by decide +kernel
theorem test_ldc :  -- V-C4, R60's example
    regAfter (exec (.ldc 3 3) (small 0 0 [] [])) 3
      = some 0x05046df0c268f73bb1cf485fd6f9972d781a1f9babd635fcf7c28362eb5f9d12 := by decide +kernel
theorem test_eq_compares_representations :  -- V-E2, V-E3
    statusAfter (exec (.eq 0 1) (small 0 Const.L [] [])) = some 0 ∧
    statusAfter (exec (.eq 0 1) (small valueX valueX [] [])) = some 4 := by decide +kernel

/-! ### One step of the port -/

theorem test_step_issue : goesOn (step (State.reset.withFetchWord 32 0x03201000)) = true := by decide +kernel
theorem test_step_illegal_word :  -- P4 step 6
    statusAfter (step (small 0 0 [] [issue 0x01801000])) = some 2 ∧
    replyAfter (step (small 0 0 [] [issue 0x01801000])) = some (some (.issued .illegalCommand)) := by decide +kernel
theorem test_step_reads_byte :
    replyAfter (step (small 0 0 (bytes fun j => j) [.access (.read 0x7F 8)])) = some (some (.byte 63)) := by decide +kernel
theorem test_step_refuses_outside_window :  -- R32: every other offset, a read of CMD, another width
    [WindowAccess.read 0x80 8, .read 0x00 32, .write 0x04 32 0, .read 0x40 32, .read 0x3F 8].all
      (fun a => a.hostOp?.isNone) = true := by decide

/-! ### The limb level: the trace of spec/95_test_vectors.md 2.5 -/

theorem test_redc_multipliers :
    (redcLow (productColumns valueX valueY) 9).1 = [0x05367fd5, 0x13bddb67, 0x144f5fa9, 0x0ee15277, 0x01158a5d, 0x03255e42, 0x1c6b6373,
      0x1d73eb4b, 0x1cd0a079] := by decide +kernel
theorem test_redc_columns :
    redcColumns (productColumns valueX valueY) = [0x06dd16f8, 0x1466e551, 0x1ab6ca61, 0x04045a82, 0x06aa6794, 0x15e4b6ff, 0x046cb9fa,
      0x073ec4cd, 0x000e68e1] := by decide +kernel

/-! ### Witnesses: states and operands that meet the statements' hypotheses -/

theorem witness_EncodeThenDecodeGivesCommand : (Instr.ldc 7 4).wellFormed = true := by decide
theorem witness_DecodeThenEncodeGivesWord : decode 0x0C700004 = .command (.ldc 7 4) := by decide

/-- A word for each of R50's clauses (a) to (e), and the same word presented at the port. -/
theorem witness_IllegalWordsAreTheListedOnes :
    ([0x0E000000, 0x01201100, 0x01801000, 0x01281000, 0x01208000, 0x0A100000, 0x09010040, 0x04101000, 0x01201001, 0x0C000005] :
      List Word).all (fun w => (decode w).command?.isNone) = true ∧
    (small 0 0 [] [issue 0x0E000000]).issuesNext 0x0E000000 [] ∧ (63 : BitVec 8).toNat ≠ 64 := by
  refine ⟨by decide, rfl, by decide⟩

theorem witness_BytesCarryTheWordLittleEndian : ((bytesOfWord 0x01201000).getD 3 0).toNat = 0x01 := by decide

theorem witness_StepRunsDecodedCommand :
    decode 0x01201000 = .command (.add 2 0 1) ∧ (small 1 2 [] [issue 0x01201000, .reset]).issuesNext 0x01201000 [.reset] :=
  ⟨by decide, rfl⟩

theorem witness_CompletionCodeIsAFunctionOfTheWord :
    (small 0 0 [] [issue 0x09000020]).issuesNext 0x09000020 [] ∧
    (small 0 0 [] [issue 0x09000040]).issuesNext 0x09000040 [] ∧
    (small 0 0 [] [issue 0x09800020]).issuesNext 0x09800020 [] := ⟨rfl, rfl, rfl⟩

/-- `fbw s0, 32` fails with LengthMismatch. -/
theorem witness_FailedCommandChangesOnlyTheCode :
    (small 0 0 [] [issue 0x09000020]).issuesNext 0x09000020 [] ∧
    ∃ t, step (small 0 0 [] [issue 0x09000020]) = .next t ∧ t.cc ≠ .ok :=
  ⟨rfl, _, rfl, by decide⟩

theorem witness_HostOperationsDoTheirEffect :
    (small 0 0 [] [issue 0x0A000000]).issuesNext 0x0A000000 [] ∧ decode 0x0A000000 = .command (.tob 0) ∧
    (small 0 0 [] [.access (.read 0x04 32)]).port = [.access (.read 0x04 32)] ∧
    (small 0 0 [] [.access (.read 0x7F 8)]).port = [.access (.read (0x40 + 63) 8)] ∧
    (small 0 0 [] [.access (.write 0x40 8 255)]).port = [.access (.write (0x40 + 0) 8 (255 : Byte).toNat)] :=
  ⟨rfl, by decide, rfl, rfl, rfl⟩

/-- Both ends of each range are in the table, their neighbours are not. -/
theorem witness_WindowAcceptsExactlyItsTable :
    [WindowAccess.write 0x00 32 0, .read 0x04 32, .read 0x40 8, .read 0x7F 8, .write 0x40 8 0, .write 0x7F 8 0].all
      (fun a => goesOn (step (small 0 0 [] [.access a]))) = true ∧
    [WindowAccess.write 0x01 32 0, .read 0x08 32, .read 0x3F 8, .read 0x80 8, .write 0x3F 8 0, .write 0x80 8 0].all
      (fun a => !goesOn (step (small 0 0 [] [.access a]))) = true := by decide +kernel

/-- One port for each clause, at the last byte its range has. -/
theorem witness_OperationsSeeEarlierOnes :
    (small 0 0 [] [.access (.write 0x7F 8 9), .access (.read 0x7F 8)]).port
      = .access (.write (0x40 + 63) 8 (9 : Byte).toNat) :: .access (.read (0x40 + 63) 8) :: [] ∧
    (small 0 0 [] [issue (encode (.tob 1)), .access (.read 0x5F 8)]).port
      = .access (.write 0x00 32 (encode (.tob 1)).toNat) :: .access (.read (0x40 + 31) 8) :: [] ∧
    (small 0 0 [] [.access (.write 0x5F 8 9), issue (encode (.fb 2))]).port
      = .access (.write (0x40 + 31) 8 (9 : Byte).toNat) :: .access (.write 0x00 32 (encode (.fb 2)).toNat) :: [] ∧
    (small 0 0 [] [.access (.write 0x7F 8 9), issue (encode (.fbw 2 64))]).port
      = .access (.write (0x40 + 63) 8 (9 : Byte).toNat) :: .access (.write 0x00 32 (encode (.fbw 2 64)).toNat) :: [] ∧
    (small 0 0 [] [issue (encode (.fb 2)), .access (.write 0x7F 8 9)]).port
      = .access (.write 0x00 32 (encode (.fb 2)).toNat) :: .access (.write (0x40 + 63) 8 (9 : Byte).toNat) :: [] ∧
    (small 0 0 [] [issue (encode (.fbw 2 64)), .access (.write 0x7F 8 9)]).port
      = .access (.write 0x00 32 (encode (.fbw 2 64)).toNat) :: .access (.write (0x40 + 63) 8 (9 : Byte).toNat) :: [] ∧
    (small 0 0 [] [issue 0x0D001000, .access (.read 0x04 32)]).port
      = .access (.write 0x00 32 (0x0D001000 : Word).toNat) :: .access (.read 0x04 32) :: [] ∧
    decode 0x0D001000 = .command (.eq 0 1) :=
  ⟨rfl, rfl, rfl, rfl, rfl, rfl, rfl, by decide⟩

theorem witness_CommandsSeeEarlierCommands :
    decode 0x01201000 = .command (.add 2 0 1) ∧ decode 0x01322000 = .command (.add 3 2 2) ∧
    (small 1 2 [] [issue 0x01201000, issue 0x01322000]).port
      = .access (.write 0x00 32 (encode (.add 2 0 1)).toNat) :: .access (.write 0x00 32 (encode (.add 3 2 2)).toNat) :: [] := by
  decide

theorem witness_IdleKeepsAllState : State.reset.port = [] := rfl

theorem witness_ResetEventLeavesResetState : (small 0 0 [] [.reset, issue 0]).port = .reset :: [issue 0] := rfl

/-- A state with bytes and a reply meets the invariant, and a step from it goes on. -/
theorem witness_StepKeepsInvariant :
    State.Inv { small 1 2 (bytes fun j => j) [issue 0x0A000000] with reply := some (.issued .ok) } ∧
    goesOn (step { small 1 2 (bytes fun j => j) [issue 0x0A000000] with reply := some (.issued .ok) }) = true := by
  refine ⟨⟨by decide +kernel, ?_, ?_⟩, by decide +kernel⟩
  · intro c h
    injection h with h
    injection h
  · intro w h
    injection h with h
    injection h

/-- An `eq` that changes EQ, a failing `fbw` that changes CC, an `ldc` that changes a register, a host write that changes a byte. -/
theorem witness_OnlyListedWritersChangeState :
    statusAfter (step (small 1 1 [] [issue 0x0D001000])) = some 4 ∧
    statusAfter (step (small 1 1 [] [issue 0x09000020])) = some 1 ∧
    regAfter (step (small 1 1 [] [issue 0x0C000000])) 0 = some 0 ∧
    bytesAfter (step (small 1 1 [(0, 7)] [.access (.write 0x40 8 8)])) [0] = some [8] := by decide +kernel

/-- Two states that agree on s0 only, and a command that reads s0 only. -/
theorem witness_CommandsReadOnlyTheirSources :
    (∀ r ∈ (Instr.sqr 2 0).sources, (small 5 1 [] []).readReg r = (small 5 2 [] []).readReg r) ∧
    (∃ t, exec (.sqr 2 0) (small 5 1 [] []) = .next t) ∧ (∃ t, exec (.sqr 2 0) (small 5 2 [] []) = .next t) ∧
    (small 5 1 [] []).readReg 1 ≠ (small 5 2 [] []).readReg 1 := by
  refine ⟨by decide +kernel, ⟨_, rfl⟩, ⟨_, rfl⟩, by decide +kernel⟩

theorem witness_RegisterCommandsFrame : (4 : BitVec 8).toNat ≤ 4 := by decide

/-- All registers reduced, and an `add` presented. -/
theorem witness_FullyReducedIsKept :
    (small (Const.L - 1) 1 [] [issue 0x01201000]).allReduced ∧
    goesOn (step (small (Const.L - 1) 1 [] [issue 0x01201000])) = true ∧ decode 0x01201000 = .command (.add 2 0 1) := by
  refine ⟨?_, by decide +kernel, by decide⟩
  unfold State.allReduced
  decide +kernel

theorem witness_LdcStoresConstant : 5 ≤ (5 : BitVec 8).toNat := by decide

theorem witness_EqComparesRepresentations :
    (small (Const.L - 1) 0 [] []).readReg 0 < Const.L ∧ (small (Const.L - 1) 0 [] []).readReg 1 < Const.L := by decide +kernel

/-- A sum at each end of each row of R81. -/
theorem witness_AddResultRanges :
    (Const.L - 1) + (Const.L - 1) < 2 * Const.L ∧
    2 * Const.L ≤ Const.L + Const.L ∧ valueMax + Const.L < 2 ^ 261 + Const.L ∧
    2 ^ 261 + Const.L ≤ valueMax + (Const.L + 1) ∧
    (small valueMax (Const.L + 1) [] []).readReg 0 + (small valueMax (Const.L + 1) [] []).readReg 1
      = valueMax + (Const.L + 1) := by decide +kernel

/-- A difference at each end of each row of R83, and operands of the inverse law. -/
theorem witness_SubResultRanges :
    Const.L ≤ 0 + Const.L ∧ 0 < Const.L + Const.L ∧ 0 + Const.L ≤ Const.L ∧ 0 + Const.L < Const.L + 1 ∧
    regAfter (exec (.sub 2 0 1) (small 0 (Const.L + 1) [] [])) 2 = some valueMax ∧
    (regAfter (exec (.add 2 0 1) (small valueX valueY [] [])) 2).isSome = true ∧ valueX < Const.L ∧ valueY < Const.L := by
  decide +kernel

theorem witness_MmulStoresMontgomeryProduct :
    valueX * valueY < Const.L * 2 ^ 261 ∧ Const.L * 2 ^ 261 ≤ valueMax * valueMax ∧
    (small valueX Const.R [] []).readReg 1 = Const.R ∧ (small valueX Const.RR [] []).readReg 1 = Const.RR ∧
    (small valueX 1 [] []).readReg 1 = 1 ∧ (small (2 ^ 256 - 1) (2 ^ 256 - 1) [] []).readReg 1 < 2 ^ 256 ∧ (small valueMax Const.L [] []).readReg 1 ≤ Const.L := by decide +kernel

theorem witness_MsqrStoresMontgomerySquare : (small (2 ^ 256 - 1) 0 [] []).readReg 0 < 2 ^ 256 := by decide +kernel

theorem witness_TomontStoresMontgomeryForm : (small (Const.L + 1) 0 [] []).readReg 0 % Const.L ≠ 0 := by decide +kernel

theorem witness_FrommontStoresPlainForm :
    (small Const.R Const.RR [] []).readReg 0 = Const.R ∧ (small Const.R Const.RR [] []).readReg 1 = Const.RR := by
  decide +kernel

theorem witness_MultiplyIdentities : valueMax < 2 ^ 261 ∧ valueMax ≠ 0 ∧ (Const.L - 1) * valueMax < Const.L * 2 ^ 261 := by
  decide +kernel

theorem witness_FbwStoresWideResidue : (65 : BitVec 8).toNat ≠ 64 := by decide

theorem witness_WideDecompositionIsResidue : 2 ^ 512 - 1 < 2 ^ 512 := by decide +kernel

theorem witness_SerializationRoundTrips : (small (2 ^ 256 - 1) 0 [] []).readReg 0 < 2 ^ 256 := by decide +kernel

theorem witness_FbAgreesWithFbwWhenHighHalfDivisible :
    (∀ j, 32 ≤ j → j < 64 → (small 0 0 (bytes fun _ => 0) []).readByte j = 0) ∧
    (small 0 0 (bytes fun _ => 0) []).memRead 0 32 < Const.L := by
  refine ⟨?_, by decide +kernel⟩
  have h : ∀ j : Fin 64, (small 0 0 (bytes fun _ => 0) []).readByte j.val = 0 := by decide +kernel
  exact fun j _ hj => h ⟨j, hj⟩

theorem witness_FbAgreesWithFbwOnlyWhenHighBytesZero :
    (∃ t, exec (.fb 2) (small 0 0 [] []) = .next t) ∧ ∃ u, exec (.fbw 2 64) (small 0 0 [] []) = .next u :=
  ⟨⟨_, rfl⟩, ⟨_, rfl⟩⟩

theorem witness_BlocksAreLittleEndian : 2 ^ 256 - 1 < 2 ^ (8 * 32) ∧ 31 < 32 ∧ (63 < 32 ∨ 0 + 32 ≤ 63) := by decide +kernel

theorem witness_ProductColumnsHoldTheProduct : valueMax < 2 ^ 261 ∧ valueX < 2 ^ 261 := by decide +kernel

theorem witness_SquaringFormIsTheProduct : valueMax < 2 ^ 261 := by decide +kernel

/-- -L⁻¹ modulo 2^261, and the largest product. -/
theorem witness_RedcHasItsClosedForm :
    0xc9db6c6f26fe9183614e75438ffa36beab1a206f2fdba84ffd2b51da312547e1b * Const.L % 2 ^ 261 = 2 ^ 261 - 1 ∧
    valueMax * valueMax < 2 ^ 522 := by decide +kernel

theorem witness_RedcProperties :
    Const.L * 2 ^ 261 - 1 < 2 ^ 522 ∧ Const.L * 2 ^ 261 - 1 < Const.L * 2 ^ 261 ∧ Const.L - 1 < Const.L := by decide +kernel

theorem witness_LimbReductionRefinesInteger : valueMax < 2 ^ 261 ∧ valueY < 2 ^ 261 := by decide +kernel

/-- Columns with a 30-bit top column, above and below 2^261 + L. -/
theorem witness_MaskedSelectIsConditionalSubtraction :
    (List.replicate 9 0x1fffffff).length = 9 ∧ (∀ l ∈ (List.replicate 9 0x1fffffff).take 8, l < 2 ^ 29) ∧
    val (List.replicate 9 0x1fffffff) < 2 ^ 261 + Const.L ∧
    [0, 0, 0, 0, 0, 0, 0, 0, 0x3fffffff].getD 8 0 < 2 ^ 30 ∧
    ¬val [0, 0, 0, 0, 0, 0, 0, 0, 0x3fffffff] < 2 ^ 261 + Const.L := by decide +kernel

theorem witness_CarryChainsAreExact :
    (limbs valueMax).length = 9 ∧ (∀ l ∈ limbs valueMax, l < 2 ^ 29) ∧ val (limbs valueX) < val (limbs valueMax) := by
  decide +kernel

end Sys2Proof.Tests
end

section
/-! PROOFS. The host window: which accesses are host operations, and that every host operation completes
(spec/20_memory.md R32, R33, R36). -/

namespace Sys2Proof.Machine

/-! ### The table of spec/20_memory.md R32 -/

/-- The window's table, as a predicate of an access: `CMD` written, `STATUS` read, a byte of `BUF` read or written. -/
def WindowAccess.inTable (a : WindowAccess) : Prop :=
  (∃ v, a = .write 0x00 32 v) ∨ a = .read 0x04 32 ∨
  (∃ j, j < 64 ∧ (a = .read (0x40 + j) 8 ∨ ∃ v, a = .write (0x40 + j) 8 v))

theorem bufIndex_isSome_iff (offset : Nat) : (bufIndex offset).isSome ↔ ∃ j, j < 64 ∧ offset = 0x40 + j := by
  have hrange : (bufIndex offset).isSome ↔ 0x40 ≤ offset ∧ offset - 0x40 < 64 := by
    unfold bufIndex bufOffset
    split <;> simp_all
  rw [hrange]
  constructor
  · rintro ⟨hlow, hhigh⟩
    exact ⟨offset - 0x40, hhigh, by omega⟩
  · rintro ⟨j, hj, rfl⟩
    omega

/-- A read is a host operation at `STATUS` with width 32, at a byte of `BUF` with width 8, and nowhere else. -/
theorem hostOp_read_isSome_iff (offset width : Nat) :
    (WindowAccess.read offset width).hostOp?.isSome ↔
      (offset = statusOffset ∧ width = 32) ∨ ((∃ j, j < 64 ∧ offset = 0x40 + j) ∧ width = 8) := by
  rw [← bufIndex_isSome_iff]
  by_cases h32 : width = 32
  · simp [WindowAccess.hostOp?, h32]
  · by_cases h8 : width = 8 <;> simp [WindowAccess.hostOp?, h32, h8]

/-- A write is a host operation at `CMD` with width 32, at a byte of `BUF` with width 8, and nowhere else. -/
theorem hostOp_write_isSome_iff (offset width value : Nat) :
    (WindowAccess.write offset width value).hostOp?.isSome ↔
      (offset = cmdOffset ∧ width = 32) ∨ ((∃ j, j < 64 ∧ offset = 0x40 + j) ∧ width = 8) := by
  rw [← bufIndex_isSome_iff]
  by_cases h32 : width = 32
  · simp [WindowAccess.hostOp?, h32]
  · by_cases h8 : width = 8 <;> simp [WindowAccess.hostOp?, h32, h8]

theorem hostOp_isSome_iff_inTable (a : WindowAccess) : a.hostOp?.isSome ↔ a.inTable := by
  cases a with
  | read offset width =>
    rw [hostOp_read_isSome_iff]
    simp [statusOffset, WindowAccess.inTable, ← and_assoc]
  | write offset width value =>
    rw [hostOp_write_isSome_iff]
    simp [cmdOffset, WindowAccess.inTable, ← and_assoc]

/-! ### Every host operation completes and takes no further entry -/

theorem exec_completes_port (i : Instr) (s : State) : ∃ t, exec i s = .next t ∧ t.port = s.port := by
  rcases exec_cases i s with ⟨rd, v, -, h⟩ | ⟨ra, -, h⟩ | ⟨ra, rb, -, h⟩ | ⟨rd, len, -, -, h⟩ | ⟨rd, k, -, -, h⟩
  · exact ⟨_, h, rfl⟩
  · exact ⟨_, h, by simp⟩
  · exact ⟨_, h, rfl⟩
  · exact ⟨_, h, rfl⟩
  · exact ⟨_, h, rfl⟩

theorem issueWord_completes_port (w : Word) (s : State) : ∃ t, issueWord w s = .next t ∧ t.port = s.port := by
  cases hd : decode w with
  | command i =>
    obtain ⟨t, ht, hport⟩ := exec_completes_port i s
    exact ⟨t.withReply (.issued t.cc), by rw [issueWord_command hd, ht]; rfl, hport⟩
  | illegal why => exact ⟨_, issueWord_illegal hd s, rfl⟩

theorem hostOperation_completes_port (op : HostOp) (s : State) :
    ∃ t, hostOperation op s = .next t ∧ t.port = s.port := by
  cases op with
  | issue w => exact issueWord_completes_port w s
  | rstatus => exact ⟨_, rfl, rfl⟩
  | rbuf j => exact ⟨_, rfl, rfl⟩
  | wbuf j v => exact ⟨_, rfl, rfl⟩

/-! ### A step with an access presented -/

theorem step_completes_of_inTable {s : State} {a : WindowAccess} {rest : List Input}
    (hp : s.port = .access a :: rest) (ha : a.inTable) : ∃ t, step s = .next t ∧ t.port = rest := by
  obtain ⟨op, hop⟩ := Option.isSome_iff_exists.mp ((hostOp_isSome_iff_inTable a).mpr ha)
  rw [step_of_hostOp hp hop]
  exact hostOperation_completes_port op (s.withPort rest)

theorem step_refuses_of_not_inTable {s : State} {a : WindowAccess} {rest : List Input}
    (hp : s.port = .access a :: rest) (ha : ¬a.inTable) : step s = .refused .outsideWindow := by
  rw [← hostOp_isSome_iff_inTable, Option.not_isSome_iff_eq_none] at ha
  exact step_of_outside hp ha

/-- Settles O11: an access is a host operation exactly when the table has it, and a host operation always completes. -/
theorem windowAcceptsExactlyItsTable : Obligations.WindowAcceptsExactlyItsTable := by
  unfold Obligations.WindowAcceptsExactlyItsTable
  intro s a rest hp
  exact ⟨step_completes_of_inTable hp, step_refuses_of_not_inTable hp⟩

end Sys2Proof.Machine
end

section
/-! PROOFS. The encoding: what the decoder does with every word, against the digits of spec/30_encoding.md R50, the masks of R48
and the byte order of R54. -/

namespace Sys2Proof

/-! ### The cases (a) to (e) of spec/30_encoding.md R50 -/

/-- R50's cases (a) to (e) over the digits of a word: (c) and (d) once for each register field, (d) once more for `IMM`. -/
def IllegalDigits (opc rd ra rb z imm : Nat) : Prop :=
  (opc < 0x01 ∨ 0x0D < opc) ∨
  z ≠ 0 ∨
  (opc ∉ [0x0A, 0x0D] ∧ 8 ≤ rd) ∨
  (opc ∉ [0x09, 0x0B, 0x0C] ∧ 8 ≤ ra) ∨
  (opc ∈ [0x01, 0x02, 0x03, 0x05, 0x0D] ∧ 8 ≤ rb) ∨
  (opc ∈ [0x0A, 0x0D] ∧ rd ≠ 0) ∨
  (opc ∈ [0x09, 0x0B, 0x0C] ∧ ra ≠ 0) ∨
  (opc ∉ [0x01, 0x02, 0x03, 0x05, 0x0D] ∧ rb ≠ 0) ∨
  (opc ∉ [0x09, 0x0C] ∧ imm ≠ 0) ∨
  (opc = 0x0C ∧ 5 ≤ imm)

/-- One of R50's cases holds of the fields. -/
def Fields.Listed (f : Fields) : Prop :=
  IllegalDigits f.opc.toNat f.rd.toNat f.ra.toNat f.rb.toNat f.z.toNat f.imm.toNat

/-- The fields of a word are its hexadecimal digits, `0xOODABZII` (spec/30_encoding.md R45). -/
theorem Fields.listed_ofWord_iff (w : Word) :
    (Fields.ofWord w).Listed ↔
      IllegalDigits (w.toNat / 2 ^ 24) (w.toNat / 2 ^ 20 % 16) (w.toNat / 2 ^ 16 % 16) (w.toNat / 2 ^ 12 % 16)
        (w.toNat / 2 ^ 8 % 16) (w.toNat % 256) := by
  have htop : w.toNat / 16777216 % 256 = w.toNat / 16777216 := Nat.mod_eq_of_lt (by have := w.isLt; omega)
  simp only [Fields.Listed, Fields.ofWord, BitVec.extractLsb'_toNat, Nat.shiftRight_eq_div_pow, Nat.pow_zero, Nat.div_one,
    Nat.reducePow, htop]

namespace Fields

theorem listed_of_reserved {f : Fields} (hz : f.z ≠ 0) : f.Listed :=
  .inr (.inl fun h => hz (BitVec.eq_of_toNat_eq h))

theorem listed_of_opc {f : Fields} (h : f.opc.toNat < 0x01 ∨ 0x0D < f.opc.toNat) : f.Listed := .inl h

section
variable {f : Fields} (hz : f.z = 0)
include hz

/-! Which of R50's cases are left for each format, once the opcode and `Z` are in order. -/

theorem listed_iff_of_R3 (hopc : f.opc ∈ [0x01#8, 0x02#8, 0x03#8, 0x05#8]) :
    f.Listed ↔ 8 ≤ f.rd.toNat ∨ 8 ≤ f.ra.toNat ∨ 8 ≤ f.rb.toNat ∨ f.imm ≠ 0 := by
  simp only [List.mem_cons, List.not_mem_nil, or_false] at hopc
  rcases hopc with h | h | h | h <;> simp [Listed, IllegalDigits, h, hz, BitVec.toNat_eq]

theorem listed_iff_of_R2 (hopc : f.opc ∈ [0x04#8, 0x06#8, 0x07#8, 0x08#8]) :
    f.Listed ↔ 8 ≤ f.rd.toNat ∨ 8 ≤ f.ra.toNat ∨ ¬(f.rb = 0 ∧ f.imm = 0) := by
  simp only [List.mem_cons, List.not_mem_nil, or_false] at hopc
  rcases hopc with h | h | h | h <;> simp [Listed, IllegalDigits, h, hz, BitVec.toNat_eq, Decidable.imp_iff_not_or]

theorem listed_iff_of_fbw (hopc : f.opc = 0x09#8) : f.Listed ↔ 8 ≤ f.rd.toNat ∨ ¬(f.ra = 0 ∧ f.rb = 0) := by
  simp [Listed, IllegalDigits, hopc, hz, BitVec.toNat_eq, Decidable.imp_iff_not_or]

theorem listed_iff_of_ldc (hopc : f.opc = 0x0C#8) :
    f.Listed ↔ (8 ≤ f.rd.toNat ∨ ¬(f.ra = 0 ∧ f.rb = 0)) ∨ ¬f.imm.toNat ≤ 4 := by
  simp [Listed, IllegalDigits, hopc, hz, BitVec.toNat_eq, Decidable.imp_iff_not_or, or_assoc, Nat.lt_iff_add_one_le]

theorem listed_iff_of_D (hopc : f.opc = 0x0B#8) : f.Listed ↔ 8 ≤ f.rd.toNat ∨ ¬(f.ra = 0 ∧ f.rb = 0 ∧ f.imm = 0) := by
  simp [Listed, IllegalDigits, hopc, hz, BitVec.toNat_eq, Decidable.imp_iff_not_or]

theorem listed_iff_of_A (hopc : f.opc = 0x0A#8) : f.Listed ↔ 8 ≤ f.ra.toNat ∨ ¬(f.rd = 0 ∧ f.rb = 0 ∧ f.imm = 0) := by
  simp [Listed, IllegalDigits, hopc, hz, BitVec.toNat_eq, Decidable.imp_iff_not_or]

theorem listed_iff_of_C (hopc : f.opc = 0x0D#8) :
    f.Listed ↔ 8 ≤ f.ra.toNat ∨ 8 ≤ f.rb.toNat ∨ ¬(f.rd = 0 ∧ f.imm = 0) := by
  simp [Listed, IllegalDigits, hopc, hz, BitVec.toNat_eq, Decidable.imp_iff_not_or]

end

end Fields

/-! ### What the decoder does with the fields of each format -/

/-- A 4-bit field is below 8 and names a register, or it is not and names none. -/
theorem regOfField_cases (x : BitVec 4) :
    (¬8 ≤ x.toNat ∧ ∃ r, fieldOfReg r = x ∧ regOfField x = some r) ∨ (8 ≤ x.toNat ∧ regOfField x = none) := by
  revert x; decide

/-- `d` is the right answer for the fields `f`, `bad` being what makes them illegal: a well-formed command with these fields when
`bad` does not hold, and illegal when it does. -/
def Fields.Answered (f : Fields) (d : Decoded) (bad : Prop) : Prop :=
  (∃ i, d = .command i ∧ encodeFields i = f ∧ i.wellFormed = true ∧ ¬bad) ∨ ((∃ why, d = .illegal why) ∧ bad)

section
variable {f : Fields} (hz : f.z = 0)
include hz

theorem decodeR3_answered {mk : RegId → RegId → RegId → Instr} (hopc : f.opc ∈ [0x01#8, 0x02#8, 0x03#8, 0x05#8])
    (henc : ∀ rd ra rb, encodeFields (mk rd ra rb) = fieldsR3 f.opc rd ra rb)
    (hwf : ∀ rd ra rb, (mk rd ra rb).wellFormed = true) : f.Answered (decodeR3 mk f) f.Listed := by
  rw [Fields.listed_iff_of_R3 hz hopc]
  obtain ⟨hrd, rd, frd, erd⟩ | ⟨hrd, erd⟩ := regOfField_cases f.rd
  · obtain ⟨hra, ra, fra, era⟩ | ⟨hra, era⟩ := regOfField_cases f.ra
    · obtain ⟨hrb, rb, frb, erb⟩ | ⟨hrb, erb⟩ := regOfField_cases f.rb
      · by_cases himm : f.imm = 0
        · refine .inl ⟨mk rd ra rb, by simp only [decodeR3, erd, era, erb, if_pos himm], ?_, hwf .., ?_⟩
          · cases f; simp_all [fieldsR3]
          · simp [hrd, hra, hrb, himm]
        · exact .inr ⟨⟨.unusedNotZero, by simp only [decodeR3, erd, era, erb, if_neg himm]⟩, .inr (.inr (.inr himm))⟩
      · exact .inr (by simp [decodeR3, erd, era, erb, hrb])
    · exact .inr (by simp [decodeR3, erd, era, hra])
  · exact .inr (by simp [decodeR3, erd, hrd])

theorem decodeR2_answered {mk : RegId → RegId → Instr} (hopc : f.opc ∈ [0x04#8, 0x06#8, 0x07#8, 0x08#8])
    (henc : ∀ rd ra, encodeFields (mk rd ra) = fieldsR2 f.opc rd ra) (hwf : ∀ rd ra, (mk rd ra).wellFormed = true) :
    f.Answered (decodeR2 mk f) f.Listed := by
  rw [Fields.listed_iff_of_R2 hz hopc]
  obtain ⟨hrd, rd, frd, erd⟩ | ⟨hrd, erd⟩ := regOfField_cases f.rd
  · obtain ⟨hra, ra, fra, era⟩ | ⟨hra, era⟩ := regOfField_cases f.ra
    · by_cases hzero : f.rb = 0 ∧ f.imm = 0
      · refine .inl ⟨mk rd ra, by simp only [decodeR2, erd, era, if_pos hzero], ?_, hwf .., by simp [hrd, hra, hzero]⟩
        cases f; simp_all [fieldsR2]
      · exact .inr ⟨⟨.unusedNotZero, by simp only [decodeR2, erd, era, if_neg hzero]⟩, .inr (.inr hzero)⟩
    · exact .inr (by simp [decodeR2, erd, era, hra])
  · exact .inr (by simp [decodeR2, erd, hrd])

theorem decodeDI_answered {mk : RegId → BitVec 8 → Instr}
    (henc : ∀ rd, encodeFields (mk rd f.imm) = fieldsDI f.opc rd f.imm) (hwf : ∀ rd, (mk rd f.imm).wellFormed = true) :
    f.Answered (decodeDI mk f) (8 ≤ f.rd.toNat ∨ ¬(f.ra = 0 ∧ f.rb = 0)) := by
  obtain ⟨hrd, rd, frd, erd⟩ | ⟨hrd, erd⟩ := regOfField_cases f.rd
  · by_cases hzero : f.ra = 0 ∧ f.rb = 0
    · refine .inl ⟨mk rd f.imm, by simp only [decodeDI, erd, if_pos hzero], ?_, hwf .., by simp [hrd, hzero]⟩
      cases f; simp_all [fieldsDI]
    · exact .inr ⟨⟨.unusedNotZero, by simp only [decodeDI, erd, if_neg hzero]⟩, .inr hzero⟩
  · exact .inr (by simp [decodeDI, erd, hrd])

theorem decodeD_answered (hopc : f.opc = 0x0B#8) : f.Answered (decodeD .fb f) f.Listed := by
  rw [Fields.listed_iff_of_D hz hopc]
  obtain ⟨hrd, rd, frd, erd⟩ | ⟨hrd, erd⟩ := regOfField_cases f.rd
  · by_cases hzero : f.ra = 0 ∧ f.rb = 0 ∧ f.imm = 0
    · refine .inl ⟨.fb rd, by simp only [decodeD, erd, if_pos hzero], ?_, rfl, by simp [hrd, hzero]⟩
      cases f; simp_all [encodeFields, fieldsD]
    · exact .inr ⟨⟨.unusedNotZero, by simp only [decodeD, erd, if_neg hzero]⟩, .inr hzero⟩
  · exact .inr (by simp [decodeD, erd, hrd])

theorem decodeA_answered (hopc : f.opc = 0x0A#8) : f.Answered (decodeA .tob f) f.Listed := by
  rw [Fields.listed_iff_of_A hz hopc]
  obtain ⟨hra, ra, fra, era⟩ | ⟨hra, era⟩ := regOfField_cases f.ra
  · by_cases hzero : f.rd = 0 ∧ f.rb = 0 ∧ f.imm = 0
    · refine .inl ⟨.tob ra, by simp only [decodeA, era, if_pos hzero], ?_, rfl, by simp [hra, hzero]⟩
      cases f; simp_all [encodeFields, fieldsA]
    · exact .inr ⟨⟨.unusedNotZero, by simp only [decodeA, era, if_neg hzero]⟩, .inr hzero⟩
  · exact .inr (by simp [decodeA, era, hra])

theorem decodeC_answered (hopc : f.opc = 0x0D#8) : f.Answered (decodeC .eq f) f.Listed := by
  rw [Fields.listed_iff_of_C hz hopc]
  obtain ⟨hra, ra, fra, era⟩ | ⟨hra, era⟩ := regOfField_cases f.ra
  · obtain ⟨hrb, rb, frb, erb⟩ | ⟨hrb, erb⟩ := regOfField_cases f.rb
    · by_cases hzero : f.rd = 0 ∧ f.imm = 0
      · refine .inl ⟨.eq ra rb, by simp only [decodeC, era, erb, if_pos hzero], ?_, rfl, by simp [hra, hrb, hzero]⟩
        cases f; simp_all [encodeFields, fieldsC]
      · exact .inr ⟨⟨.unusedNotZero, by simp only [decodeC, era, erb, if_neg hzero]⟩, .inr (.inr hzero)⟩
    · exact .inr (by simp [decodeC, era, erb, hrb])
  · exact .inr (by simp [decodeC, era, hra])

theorem decodeDI_fbw_answered (hopc : f.opc = 0x09#8) : f.Answered (decodeDI .fbw f) f.Listed := by
  rw [Fields.listed_iff_of_fbw hz hopc]
  exact decodeDI_answered hz (fun _ => by rw [hopc]; rfl) fun _ => rfl

theorem decodeDI_ldc_answered (hopc : f.opc = 0x0C#8) :
    f.Answered (if f.imm.toNat ≤ 4 then decodeDI .ldc f else .illegal .noSuchConstant) f.Listed := by
  rw [Fields.listed_iff_of_ldc hz hopc]
  by_cases hk : f.imm.toNat ≤ 4
  · simp only [hk, if_true, not_true_eq_false, or_false]
    exact decodeDI_answered hz (fun _ => by rw [hopc]; rfl) fun _ => by simpa [Instr.wellFormed] using hk
  · exact .inr ⟨⟨.noSuchConstant, if_neg hk⟩, .inr hk⟩

/-- One case for each opcode of spec/30_encoding.md R49. -/
theorem decodeFields_answered : f.Answered (decodeFields f) f.Listed := by
  unfold decodeFields
  split
  next h => exact decodeR3_answered hz (by simp [h]) (fun _ _ _ => by rw [h]; rfl) fun _ _ _ => rfl
  next h => exact decodeR3_answered hz (by simp [h]) (fun _ _ _ => by rw [h]; rfl) fun _ _ _ => rfl
  next h => exact decodeR3_answered hz (by simp [h]) (fun _ _ _ => by rw [h]; rfl) fun _ _ _ => rfl
  next h => exact decodeR2_answered hz (by simp [h]) (fun _ _ => by rw [h]; rfl) fun _ _ => rfl
  next h => exact decodeR3_answered hz (by simp [h]) (fun _ _ _ => by rw [h]; rfl) fun _ _ _ => rfl
  next h => exact decodeR2_answered hz (by simp [h]) (fun _ _ => by rw [h]; rfl) fun _ _ => rfl
  next h => exact decodeR2_answered hz (by simp [h]) (fun _ _ => by rw [h]; rfl) fun _ _ => rfl
  next h => exact decodeR2_answered hz (by simp [h]) (fun _ _ => by rw [h]; rfl) fun _ _ => rfl
  next h => exact decodeDI_fbw_answered hz h
  next h => exact decodeA_answered hz h
  next h => exact decodeD_answered hz h
  next h => exact decodeDI_ldc_answered hz h
  next h => exact decodeC_answered hz h
  next =>
    refine .inr ⟨⟨.unknownOpcode, rfl⟩, Fields.listed_of_opc ?_⟩
    simp only [imp_false] at *
    bv_omega

end

/-- Every word decodes to the well-formed command it is the word of, none of R50's cases holding, or is illegal, one of them
holding. -/
theorem decode_cases (w : Word) :
    (∃ i, decode w = .command i ∧ encode i = w ∧ i.wellFormed = true ∧ ¬(Fields.ofWord w).Listed) ∨
    ((∃ why, decode w = .illegal why) ∧ (Fields.ofWord w).Listed) := by
  unfold decode
  by_cases hz : (Fields.ofWord w).z = 0
  · simp only [hz, if_true]
    refine (decodeFields_answered hz).imp_left ?_
    rintro ⟨i, hd, he, hrest⟩
    exact ⟨i, hd, by rw [encode, he, Fields.toWord_ofWord], hrest⟩
  · exact .inr ⟨⟨.reservedNotZero, if_neg hz⟩, Fields.listed_of_reserved hz⟩

theorem decode_illegal_iff (w : Word) : (∃ why, decode w = .illegal why) ↔ (Fields.ofWord w).Listed := by
  obtain ⟨i, hd, -, -, hlegal⟩ | ⟨hwhy, hlisted⟩ := decode_cases w
  · simp [hd, hlegal]
  · exact iff_of_true hwhy hlisted

/-! ### The mask and match rows of spec/30_encoding.md R48 -/

/-- The mask bits of a register field: the bit that a register's number leaves zero when the format uses the field, else all. -/
def registerMask (used : Prop) [Decidable used] : BitVec 4 := if used then 0x8 else 0xF

theorem toNat_of_and_registerMask {x : BitVec 4} {used : Prop} [Decidable used] (h : x &&& registerMask used = 0) :
    x.toNat < 8 ∧ (¬used → x.toNat = 0) := by
  have hlow : ∀ y : BitVec 4, y &&& 0x8 = 0 → y.toNat < 8 := by decide
  have hall : ∀ y : BitVec 4, y &&& 0xF = 0 → y.toNat = 0 := by decide
  by_cases hu : used
  · simp only [registerMask, hu, if_true] at h
    exact ⟨hlow x h, fun hn => absurd hu hn⟩
  · simp only [registerMask, hu, if_false] at h
    have := hall x h
    exact ⟨by omega, fun _ => this⟩

/-- A row's mask and match bits test, field by field, what R50 asks of a word with the row's opcode. -/
abbrev TableRow.TestsItsFormat (row : TableRow) : Prop :=
  let m := Fields.ofWord row.mask
  let p := Fields.ofWord row.pattern
  let opc := p.opc.toNat
  (m.opc = 0xFF ∧ 0x01 ≤ opc ∧ opc ≤ 0x0D) ∧
  (m.z = 0xF ∧ p.z = 0) ∧
  (m.rd = registerMask (opc ∉ [0x0A, 0x0D]) ∧ p.rd = 0) ∧
  (m.ra = registerMask (opc ∉ [0x09, 0x0B, 0x0C]) ∧ p.ra = 0) ∧
  (m.rb = registerMask (opc ∈ [0x01, 0x02, 0x03, 0x05, 0x0D]) ∧ p.rb = 0) ∧
  (opc ≠ 0x09 → m.imm = 0xFF) ∧ (opc ∉ [0x09, 0x0C] → p.imm = 0) ∧ p.imm.toNat ≤ 4

theorem opcodeTable_testsItsFormat : ∀ row ∈ opcodeTable, row.TestsItsFormat := by decide

/-- Each field of a word that fits a row fits the row's field. -/
theorem TableRow.fields_of_fits {row : TableRow} {w : Word} (h : row.fits w = true) :
    let f := Fields.ofWord w
    let m := Fields.ofWord row.mask
    let p := Fields.ofWord row.pattern
    f.opc &&& m.opc = p.opc ∧ f.z &&& m.z = p.z ∧ f.rd &&& m.rd = p.rd ∧ f.ra &&& m.ra = p.ra ∧ f.rb &&& m.rb = p.rb ∧
      f.imm &&& m.imm = p.imm := by
  have hw : w &&& row.mask = row.pattern := by simpa [TableRow.fits] using h
  simp only [Fields.ofWord, ← hw, BitVec.extractLsb'_and, and_self]

/-- A word that fits a row of the opcode map is none of R50's illegal words. -/
theorem not_listed_of_fits {row : TableRow} (hrow : row ∈ opcodeTable) {w : Word} (h : row.fits w = true) :
    ¬(Fields.ofWord w).Listed := by
  obtain ⟨⟨mopc, hlow, hhigh⟩, ⟨mz, pz⟩, ⟨mrd, prd⟩, ⟨mra, pra⟩, ⟨mrb, prb⟩, mimm, pimm, hk⟩ :=
    opcodeTable_testsItsFormat row hrow
  obtain ⟨fopc, fz, frd, fra, frb, fimm⟩ := TableRow.fields_of_fits h
  have hopc : (Fields.ofWord w).opc = (Fields.ofWord row.pattern).opc := by
    rw [← fopc, mopc]
    exact (BitVec.and_allOnes (w := 8)).symm
  have hz : (Fields.ofWord w).z = 0 := by
    rw [← pz, ← fz, mz]
    exact (BitVec.and_allOnes (w := 4)).symm
  have himm (hne : (Fields.ofWord row.pattern).opc.toNat ≠ 0x09) :
      (Fields.ofWord w).imm = (Fields.ofWord row.pattern).imm := by
    rw [← fimm, mimm hne]
    exact (BitVec.and_allOnes (w := 8)).symm
  obtain ⟨hrd, hrd0⟩ := toNat_of_and_registerMask (mrd ▸ frd.trans prd)
  obtain ⟨hra, hra0⟩ := toNat_of_and_registerMask (mra ▸ fra.trans pra)
  obtain ⟨hrb, hrb0⟩ := toNat_of_and_registerMask (mrb ▸ frb.trans prb)
  unfold Fields.Listed
  rw [hopc]
  rintro (ha | hb | ⟨-, hc⟩ | ⟨-, hc⟩ | ⟨-, hc⟩ | ⟨hu, hd⟩ | ⟨hu, hd⟩ | ⟨hu, hd⟩ | ⟨hu, hd⟩ | ⟨hldc, he⟩)
  · omega
  · exact hb (by rw [hz]; rfl)
  · omega
  · omega
  · omega
  · exact hd (hrd0 (not_not_intro hu))
  · exact hd (hra0 (not_not_intro hu))
  · exact hd (hrb0 hu)
  · refine hd ?_
    rw [himm (fun h9 => hu (by simp [h9])), pimm hu]
    rfl
  · rw [himm (by omega)] at he
    omega

/-- No word fits two rows: the match bits of one contradict the other's where both masks test. -/
theorem opcodeTable_disjoint :
    opcodeTable.Pairwise fun row other => row.pattern &&& other.mask ≠ other.pattern &&& row.mask := by decide

theorem TableRow.patterns_agree_of_fits {row other : TableRow} {w : Word} (h : row.fits w = true) (h' : other.fits w = true) :
    row.pattern &&& other.mask = other.pattern &&& row.mask := by
  simp only [TableRow.fits, beq_iff_eq] at h h'
  rw [← h, ← h', BitVec.and_assoc, BitVec.and_assoc, BitVec.and_comm row.mask]

/-- A row that fits a word is the only one. -/
theorem filter_fits_eq_singleton {row : TableRow} (hrow : row ∈ opcodeTable) {w : Word} (h : row.fits w = true) :
    (opcodeTable.filter fun r => r.fits w) = [row] := by
  have hmem : row ∈ opcodeTable.filter fun r => r.fits w := List.mem_filter.mpr ⟨hrow, h⟩
  have hfits : ∀ r ∈ opcodeTable.filter fun r => r.fits w, r.fits w = true := fun r hr => (List.mem_filter.mp hr).2
  have hpair := opcodeTable_disjoint.filter fun r => r.fits w
  match hl : opcodeTable.filter fun r => r.fits w with
  | [] => simp [hl] at hmem
  | [r] => simp_all
  | r :: r' :: rest =>
    rw [hl] at hpair hfits
    exact absurd (TableRow.patterns_agree_of_fits (hfits r (by simp)) (hfits r' (by simp)))
      ((List.pairwise_cons.mp hpair).1 r' (by simp))

/-- The lemmas of Laws/PerInstr.lean together: a well-formed command's word fits a row with the command's mnemonic. -/
theorem row_fits_encode (i : Instr) (hwf : i.wellFormed = true) :
    ∃ row ∈ opcodeTable, row.mnemonic = i.mnemonic ∧ row.fits (encode i) = true := by
  have hany : Laws.TableRow.Statement i := by
    cases i with
    | add rd ra rb => exact Laws.TableRow.add rd ra rb
    | sub rd ra rb => exact Laws.TableRow.sub rd ra rb
    | mul rd ra rb => exact Laws.TableRow.mul rd ra rb
    | sqr rd ra => exact Laws.TableRow.sqr rd ra
    | mmul rd ra rb => exact Laws.TableRow.mmul rd ra rb
    | msqr rd ra => exact Laws.TableRow.msqr rd ra
    | tomont rd ra => exact Laws.TableRow.tomont rd ra
    | frommont rd ra => exact Laws.TableRow.frommont rd ra
    | fbw rd len => exact Laws.TableRow.fbw rd len
    | tob ra => exact Laws.TableRow.tob ra
    | fb rd => exact Laws.TableRow.fb rd
    | ldc rd k => exact Laws.TableRow.ldc rd k
    | eq ra rb => exact Laws.TableRow.eq ra rb
  simpa using hany hwf

/-- Settles O5: a command's word fits the command's row, a word that fits a row is not illegal, and no two rows fit one word. -/
theorem legalWordMatchesExactlyOneRow : Obligations.LegalWordMatchesExactlyOneRow := by
  unfold Obligations.LegalWordMatchesExactlyOneRow
  intro w
  obtain ⟨i, hd, he, hwf, -⟩ | ⟨hwhy, hlisted⟩ := decode_cases w
  · obtain ⟨row, hrow, hname, hfits⟩ := row_fits_encode i hwf
    rw [he] at hfits
    exact .inl ⟨i, hd, by rw [filter_fits_eq_singleton hrow hfits, List.map_singleton, hname]⟩
  · exact .inr ⟨hwhy, List.filter_eq_nil_iff.mpr fun _ hrow hfits => not_listed_of_fits hrow hfits hlisted⟩

/-! ### Illegal words at the port, and `fbw` with another length -/

theorem decode_toWord {f : Fields} (hz : f.z = 0) : decode f.toWord = decodeFields f := by
  simp only [decode, Fields.ofWord_toWord, hz, if_true]

theorem decode_encode_fbw (rd : RegId) (len : BitVec 8) : decode (encode (.fbw rd len)) = .command (.fbw rd len) := by
  rw [encode, decode_toWord rfl]
  simp [encodeFields, fieldsDI, decodeFields, decodeDI]

theorem step_of_issued_illegal {w : Word} {why : Illegal} (hd : decode w = .illegal why) {s : Machine.State}
    {rest : List Machine.Input} (h : s.issuesNext w rest) :
    Machine.step s = .next { s with port := rest, cc := .illegalCommand, reply := some (.issued .illegalCommand) } := by
  rw [Machine.step_of_issuesNext h, Machine.issueWord_illegal hd]
  rfl

/-- Settles O4: R50's cases are read off the decoder's answer, a rejected word raises IllegalCommand, and `fbw` is encoded with
every length. -/
theorem illegalWordsAreTheListedOnes : Obligations.IllegalWordsAreTheListedOnes := by
  unfold Obligations.IllegalWordsAreTheListedOnes
  refine ⟨fun w => ?_, fun rd len s hlen => ⟨decode_encode_fbw rd len, ?_⟩⟩
  · have hiff := (Fields.listed_ofWord_iff w).symm.trans (decode_illegal_iff w).symm
    refine ⟨hiff, fun hlisted s rest hs => ?_⟩
    obtain ⟨why, hd⟩ := hiff.mp hlisted
    exact step_of_issued_illegal hd hs
  · exact Machine.exec_fbw_other rd (fun h64 => hlen (by rw [h64]; rfl)) s

/-! ### Words on a byte transport (spec/30_encoding.md R54) -/

theorem decodeBytes_bytesOfWord_append (w : Word) (rest : List Byte) :
    decodeBytes (bytesOfWord w ++ rest) = (decode w, rest) := by
  simp only [bytesOfWord, List.cons_append, List.nil_append, decodeBytes, wordOfBytes_bytesOfWord]

theorem toNat_getD_bytesOfWord (w : Word) {k : Nat} (hk : k < 4) :
    ((bytesOfWord w).getD k 0).toNat = w.toNat / 2 ^ (8 * k) % 256 := by
  have hbyte : (bytesOfWord w).getD k 0 = w.extractLsb' (8 * k) 8 := by
    match k, hk with
    | 0, _ | 1, _ | 2, _ | 3, _ => rfl
  rw [hbyte, BitVec.extractLsb'_toNat, Nat.shiftRight_eq_div_pow]

/-- Settles O6: the four bytes are read back as the word, and byte k is the word's digit k to base 256. -/
theorem bytesCarryTheWordLittleEndian : Obligations.BytesCarryTheWordLittleEndian := by
  unfold Obligations.BytesCarryTheWordLittleEndian
  exact ⟨decodeBytes_bytesOfWord_append, fun w _ hk => toNat_getD_bytesOfWord w hk, by decide, by decide⟩

end Sys2Proof
end

section
/-! PROOFS. The commands `ldc` and `eq` (spec/40_constants_compare.md): the word and the next state of each, and what equality of two
register integers says of their limbs and residues. -/

namespace Sys2Proof

/-! ### The words of `ldc` and `eq` -/

@[simp] theorem toNat_fieldOfReg (r : RegId) : (fieldOfReg r).toNat = r.val := by
  revert r; decide

theorem toNat_encode_ldc (rd : RegId) (k : BitVec 8) :
    (encode (.ldc rd k)).toNat = 0x0C000000 + rd.val * 2 ^ 20 + k.toNat := by
  rw [encode, Fields.toNat_toWord]
  simp [encodeFields, fieldsDI]

theorem toNat_encode_eq (ra rb : RegId) :
    (encode (.eq ra rb)).toNat = 0x0D000000 + ra.val * 2 ^ 16 + rb.val * 2 ^ 12 := by
  rw [encode, Fields.toNat_toWord]
  simp [encodeFields, fieldsC]

/-- The term of an `ldc` with no such constant has a word that is no command (spec/30_encoding.md R50 (e)). -/
theorem decode_encode_ldc_illegal (rd : RegId) {k : BitVec 8} (hk : 5 ≤ k.toNat) :
    decode (encode (.ldc rd k)) = .illegal .noSuchConstant := by
  have hlarge : ¬k.toNat ≤ 4 := by omega
  rw [encode, decode_toWord rfl]
  exact if_neg hlarge

namespace Machine

/-! ### `ldc` -/

/-- `ldc` of a constant leaves its literal `c` in the destination and changes the completion code, nothing else. -/
theorem exec_ldc_next {k : BitVec 8} {v : Nat} (hk : constOperand k = some v) {c : Scalar} (hc : c.toNat = v) (rd : RegId)
    (s : State) : exec (.ldc rd k) s = .next { s with regs := s.regs.set rd c, cc := .ok } := by
  subst hc
  rw [exec_ldc_legal hk, complete, State.writeReg, BitVec.ofNat_toNat, BitVec.setWidth_eq]
  rfl

/-- Settles O21: each id below 5 names a constant whose literal is stored, and the decoder rejects the words of all other ids. -/
theorem ldcStoresConstant : Obligations.LdcStoresConstant := by
  unfold Obligations.LdcStoresConstant
  intro rd s
  refine ⟨toNat_encode_ldc rd, ?zero, ?L, ?R, ?RR, ?LFACTOR, fun k hk => ?other⟩
  case zero => exact exec_ldc_next rfl (by decide +kernel) rd s
  case L => exact exec_ldc_next (v := Const.L) rfl (by decide +kernel) rd s
  case R => exact exec_ldc_next (v := Const.R) rfl (by decide +kernel) rd s
  case RR => exact exec_ldc_next (v := Const.RR) rfl (by decide +kernel) rd s
  case LFACTOR => exact exec_ldc_next (v := Const.LFACTOR) rfl (by decide +kernel) rd s
  case other => rw [decode_encode_ldc_illegal rd hk]; rfl

/-! ### `eq` -/

set_option exponentiation.threshold 300 in
/-- Two register integers are equal exactly when their nine limb pairs are (spec/00_scope.md R7). -/
theorem eq_iff_limb_eq {a b : Nat} (ha : a < 2 ^ 261) (hb : b < 2 ^ 261) : a = b ↔ ∀ k, k < 9 → limb a k = limb b k := by
  refine ⟨fun h _ _ => by rw [h], fun h => ?_⟩
  have hlimbs : limbs a = limbs b := List.map_congr_left fun k hk => h k (List.mem_range.mp hk)
  rw [← val_limbs ha, hlimbs, val_limbs hb]

/-- Settles O22: `eq` compares the register integers, which their nine limbs determine, and which below L are their own residues. -/
theorem eqComparesRepresentations : Obligations.EqComparesRepresentations := by
  unfold Obligations.EqComparesRepresentations
  intro ra rb s
  refine ⟨toNat_encode_eq ra rb, exec_eq ra rb s, eq_iff_limb_eq (readReg_lt s ra) (readReg_lt s rb), fun ha hb => ?_⟩
  rw [Nat.mod_eq_of_lt ha, Nat.mod_eq_of_lt hb]

end Machine

end Sys2Proof
end

section
/-! PROOFS. The carry chains and the masked select (spec/41_datapath_primitives.md R71 to R73): what each chain leaves, for limb
vectors of any length and any carry or borrow in; then the select, which is a choice between two vectors. -/

namespace Sys2Proof.Machine

set_option exponentiation.threshold 300

/-! ### Limb vectors -/

/-- The weight after one more limb. -/
theorem limbWeight_succ (n : Nat) : 2 ^ (29 * (n + 1)) = 2 ^ 29 * 2 ^ (29 * n) := by
  rw [Nat.mul_succ, Nat.pow_add, Nat.mul_comm]

theorem val_lt {x : List Nat} (h : ∀ l ∈ x, l < 2 ^ 29) : val x < 2 ^ (29 * x.length) := by
  induction x with
  | nil => simp
  | cons l ls ih =>
    obtain ⟨hl, hls⟩ := List.forall_mem_cons.mp h
    have hrest := ih hls
    rw [val_cons, List.length_cons, limbWeight_succ]
    omega

theorem val_lt_of_nine_limbs {x : List Nat} (hlen : x.length = 9) (hx : ∀ l ∈ x, l < 2 ^ 29) : val x < 2 ^ 261 := by
  have h := val_lt hx
  rwa [hlen] at h

/-! ### `LimbAdd` (R72) -/

/-- The sum's limbs and the carry stand for the operands' sum and the carry in. -/
theorem limbAddFrom_spec {x y : List Nat} (hlen : x.length = y.length) (c : Nat) :
    val x + val y + c = val (limbAddFrom c x y).1 + (limbAddFrom c x y).2 * 2 ^ (29 * x.length) ∧
    (limbAddFrom c x y).1.length = x.length ∧ ∀ l ∈ (limbAddFrom c x y).1, l < 2 ^ 29 := by
  induction x generalizing y c with
  | nil =>
    obtain rfl := List.length_eq_zero_iff.mp hlen.symm
    simp [limbAddFrom]
  | cons a as ih =>
    obtain ⟨b, bs, rfl⟩ := List.exists_cons_of_length_eq_add_one hlen.symm
    obtain ⟨hval, hlength, hlimbs⟩ := ih (Nat.succ.inj hlen) ((a + b + c) / 2 ^ 29)
    rw [limbAddFrom_cons]
    generalize limbAddFrom ((a + b + c) / 2 ^ 29) as bs = r at hval hlength hlimbs ⊢
    refine ⟨?_, congrArg (· + 1) hlength, List.forall_mem_cons.mpr ⟨Nat.mod_lt _ (by decide), hlimbs⟩⟩
    simp only [val_cons, List.length_cons, limbWeight_succ, Nat.mul_left_comm r.2]
    omega

theorem limbAddFrom_carry_le {x y : List Nat} (hlen : x.length = y.length) (hx : ∀ l ∈ x, l < 2 ^ 29)
    (hy : ∀ l ∈ y, l < 2 ^ 29) {c : Nat} (hc : c ≤ 1) : (limbAddFrom c x y).2 ≤ 1 := by
  obtain ⟨hval, -, -⟩ := limbAddFrom_spec hlen c
  have hvx := val_lt hx
  have hvy := val_lt hy
  rw [← hlen] at hvy
  refine Nat.le_of_not_lt fun hcarry => ?_
  have := Nat.mul_le_mul_right (2 ^ (29 * x.length)) hcarry
  omega

/-! ### `LimbSub` (R73) -/

/-- The difference's limbs, the subtrahend and the borrow in stand for the minuend and the borrow out. -/
theorem limbSubFrom_spec {x y : List Nat} (hlen : x.length = y.length) (hx : ∀ l ∈ x, l < 2 ^ 29)
    (hy : ∀ l ∈ y, l < 2 ^ 29) {bw : Nat} (hbw : bw ≤ 1) :
    val x + (limbSubFrom bw x y).2 * 2 ^ (29 * x.length) = val (limbSubFrom bw x y).1 + val y + bw ∧
    (limbSubFrom bw x y).1.length = x.length ∧ ∀ l ∈ (limbSubFrom bw x y).1, l < 2 ^ 29 := by
  induction x generalizing y bw with
  | nil =>
    obtain rfl := List.length_eq_zero_iff.mp hlen.symm
    simp [limbSubFrom]
  | cons a as ih =>
    obtain ⟨b, bs, rfl⟩ := List.exists_cons_of_length_eq_add_one hlen.symm
    obtain ⟨ha, has⟩ := List.forall_mem_cons.mp hx
    obtain ⟨hb, hbs⟩ := List.forall_mem_cons.mp hy
    obtain ⟨hval, hlength, hlimbs⟩ := ih (Nat.succ.inj hlen) has hbs (bw := if (a : Int) - b - bw < 0 then 1 else 0)
      (by split <;> decide)
    rw [limbSubFrom_cons]
    generalize limbSubFrom (if (a : Int) - b - bw < 0 then 1 else 0) as bs = r at hval hlength hlimbs ⊢
    refine ⟨?_, congrArg (· + 1) hlength, List.forall_mem_cons.mpr ⟨by omega, hlimbs⟩⟩
    simp only [val_cons, List.length_cons, limbWeight_succ, Nat.mul_left_comm r.2]
    split at hval <;> omega

theorem limbSubFrom_borrow_le {x y : List Nat} (hlen : x.length = y.length) (hx : ∀ l ∈ x, l < 2 ^ 29)
    (hy : ∀ l ∈ y, l < 2 ^ 29) {bw : Nat} (hbw : bw ≤ 1) : (limbSubFrom bw x y).2 ≤ 1 := by
  obtain ⟨hval, hlength, hlimbs⟩ := limbSubFrom_spec hlen hx hy hbw
  have hvy := val_lt hy
  have hvd := val_lt hlimbs
  rw [← hlen] at hvy
  rw [hlength] at hvd
  refine Nat.le_of_not_lt fun hborrow => ?_
  have := Nat.mul_le_mul_right (2 ^ (29 * x.length)) hborrow
  omega

/-! ### Nine limbs -/

section
variable {x y : List Nat} (hxlen : x.length = 9) (hylen : y.length = 9) (hx : ∀ l ∈ x, l < 2 ^ 29) (hy : ∀ l ∈ y, l < 2 ^ 29)
include hxlen hylen hx hy

theorem limbAdd_spec :
    val x + val y = val (limbAdd x y).1 + (limbAdd x y).2 * 2 ^ 261 ∧ (limbAdd x y).2 ≤ 1 ∧
    (limbAdd x y).1.length = 9 ∧ ∀ l ∈ (limbAdd x y).1, l < 2 ^ 29 := by
  have hlen := hxlen.trans hylen.symm
  obtain ⟨hval, hslen, hs⟩ := limbAddFrom_spec hlen 0
  rw [hxlen] at hval hslen
  exact ⟨hval, limbAddFrom_carry_le hlen hx hy (Nat.zero_le 1), hslen, hs⟩

theorem limbSub_spec :
    val x + (limbSub x y).2 * 2 ^ 261 = val (limbSub x y).1 + val y ∧ (limbSub x y).2 ≤ 1 ∧
    (limbSub x y).1.length = 9 ∧ ∀ l ∈ (limbSub x y).1, l < 2 ^ 29 := by
  have hlen := hxlen.trans hylen.symm
  obtain ⟨hval, hdlen, hd⟩ := limbSubFrom_spec hlen hx hy (Nat.zero_le 1)
  rw [hxlen] at hval hdlen
  exact ⟨hval, limbSubFrom_borrow_le hlen hx hy (Nat.zero_le 1), hdlen, hd⟩

/-- The source's "the raw result underflows". -/
theorem limbSub_borrow_eq_one_iff : (limbSub x y).2 = 1 ↔ val x < val y := by
  obtain ⟨hval, hbw, hdlen, hd⟩ := limbSub_spec hxlen hylen hx hy
  have hdlt := val_lt_of_nine_limbs hdlen hd
  omega

end

/-- Settles O48: both chains are exact from carry or borrow 0, and the borrow is read off the exact equation. -/
theorem carryChainsAreExact : Obligations.CarryChainsAreExact := by
  unfold Obligations.CarryChainsAreExact
  intro x y hxlen hylen hx hy
  obtain ⟨hadd, hcarry, hslen, hs⟩ := limbAdd_spec hxlen hylen hx hy
  obtain ⟨hsub, hborrow, hdlen, hd⟩ := limbSub_spec hxlen hylen hx hy
  exact ⟨hadd, hcarry, hslen, hs, hsub, hborrow, limbSub_borrow_eq_one_iff hxlen hylen hx hy, hdlen, hd⟩

/-! ### The conditional subtraction on integers (R71) -/

theorem L_pos : 0 < Const.L := by decide

theorem L_lt : Const.L < 2 ^ 253 := by decide

theorem condSubL_eq_ite (t : Nat) : condSubL t = if Const.L ≤ t then t - Const.L else t := rfl

theorem condSubL_lt {t : Nat} (h : t < 2 ^ 261 + Const.L) : condSubL t < 2 ^ 261 := by
  have hL := L_lt
  rcases condSubL_cases t with ⟨hge, heq⟩ | ⟨hlt, heq⟩
  · omega
  · omega

theorem condSubL_lt_L {t : Nat} (h : t < 2 * Const.L) : condSubL t < Const.L := by
  rcases condSubL_cases t with ⟨hge, heq⟩ | ⟨hlt, heq⟩
  · omega
  · omega

theorem condSubL_mod (t : Nat) : condSubL t % Const.L = t % Const.L := by
  rcases condSubL_cases t with ⟨hge, heq⟩ | ⟨hlt, heq⟩
  · exact (congrArg (· % Const.L) heq).trans (Nat.mod_eq_sub_mod hge).symm
  · exact congrArg (· % Const.L) heq

/-! ### The masked select (R71) -/

theorem blendLimb_selectMask_zero (d : Nat) {t : Nat} (ht : t < 2 ^ 29) : blendLimb (selectMask 0) d t = t := by
  simp only [blendLimb, selectMask, Nat.mul_zero, Nat.and_zero, Nat.zero_xor, Nat.zero_or, Nat.and_two_pow_sub_one_eq_mod]
  exact Nat.mod_eq_of_lt ht

theorem blendLimb_selectMask_one {d : Nat} (hd : d < 2 ^ 29) (t : Nat) : blendLimb (selectMask 1) d t = d := by
  simp only [blendLimb, selectMask, Nat.mul_one, Nat.xor_self, Nat.and_zero, Nat.or_zero, Nat.and_two_pow_sub_one_eq_mod]
  exact Nat.mod_eq_of_lt hd

theorem blend_selectMask_zero {d t : List Nat} (hlen : d.length = t.length) (ht : ∀ l ∈ t, l < 2 ^ 29) :
    blend (selectMask 0) d t = t := by
  refine List.ext_getElem (by simp [blend, hlen]) fun i _ hi => ?_
  simp only [blend, List.getElem_zipWith, blendLimb_selectMask_zero _ (ht _ (List.getElem_mem hi))]

theorem blend_selectMask_one {d t : List Nat} (hlen : d.length = t.length) (hd : ∀ l ∈ d, l < 2 ^ 29) :
    blend (selectMask 1) d t = d := by
  refine List.ext_getElem (by simp [blend, hlen]) fun i _ hi => ?_
  simp only [blend, List.getElem_zipWith, blendLimb_selectMask_one (hd _ (List.getElem_mem hi))]

theorem limbs_L_lt : ∀ l ∈ limbs Const.L, l < 2 ^ 29 := fun _ => limbs_lt

theorem val_limbs_L : val (limbs Const.L) = Const.L := val_limbs (Nat.lt_trans L_lt (by decide))

theorem selectReduced_eq (hi : Nat) (tl : List Nat) :
    selectReduced hi tl =
      blend (selectMask (hi ||| (1 - (limbSub tl (limbs Const.L)).2))) (limbSub tl (limbs Const.L)).1 tl := rfl

section
variable {hi : Nat} (hhi : hi ≤ 1) {tl : List Nat} (hlen : tl.length = 9) (htl : ∀ l ∈ tl, l < 2 ^ 29)
include hhi hlen htl

/-- `ge` is 1 exactly when the value with `hi` above the nine limbs is at least L. -/
theorem selectBit_eq_ite :
    hi ||| (1 - (limbSub tl (limbs Const.L)).2) = if Const.L ≤ val tl + hi * 2 ^ 261 then 1 else 0 := by
  have hL := L_lt
  obtain ⟨-, hbw, -, -⟩ := limbSub_spec hlen (limbs_length _) htl limbs_L_lt
  have hborrow := limbSub_borrow_eq_one_iff hlen (limbs_length _) htl limbs_L_lt
  rw [val_limbs_L] at hborrow
  generalize (limbSub tl (limbs Const.L)).2 = bw at hbw hborrow ⊢
  obtain rfl | rfl := Nat.le_one_iff_eq_zero_or_eq_one.mp hhi
  · rw [Nat.zero_or]
    split <;> omega
  · rw [if_pos (by omega)]
    obtain rfl | rfl := Nat.le_one_iff_eq_zero_or_eq_one.mp hbw <;> rfl

theorem selectReduced_eq_ite :
    selectReduced hi tl = if Const.L ≤ val tl + hi * 2 ^ 261 then (limbSub tl (limbs Const.L)).1 else tl := by
  obtain ⟨-, -, hdlen, hd⟩ := limbSub_spec hlen (limbs_length _) htl limbs_L_lt
  have hlens := hdlen.trans hlen.symm
  rw [selectReduced_eq, selectBit_eq_ite hhi hlen htl]
  split
  · exact blend_selectMask_one hlens hd
  · exact blend_selectMask_zero hlens htl

theorem selectReduced_nine_limbs :
    (selectReduced hi tl).length = 9 ∧ ∀ l ∈ selectReduced hi tl, l < 2 ^ 29 := by
  obtain ⟨-, -, hdlen, hd⟩ := limbSub_spec hlen (limbs_length _) htl limbs_L_lt
  rw [selectReduced_eq_ite hhi hlen htl]
  split
  · exact ⟨hdlen, hd⟩
  · exact ⟨hlen, htl⟩

/-- The select subtracts L once from the value of 262 bits and keeps the low 261 (used by R71 and R80). -/
theorem val_selectReduced : val (selectReduced hi tl) = condSubL (val tl + hi * 2 ^ 261) % 2 ^ 261 := by
  have hL := L_lt
  obtain ⟨hval, -, hdlen, hd⟩ := limbSub_spec hlen (limbs_length _) htl limbs_L_lt
  have hdlt := val_lt_of_nine_limbs hdlen hd
  have htlt := val_lt_of_nine_limbs hlen htl
  rw [val_limbs_L] at hval
  rw [selectReduced_eq_ite hhi hlen htl, condSubL_eq_ite]
  split <;> omega

end

/-! ### `CondSubL` on columns with a 30-bit top column -/

section
variable {ts : List Nat} (hlen : ts.length = 9)
include hlen

theorem eq_take_append_getD : ts = ts.take 8 ++ [ts.getD 8 0] := by
  have h8 : 8 < ts.length := by omega
  rw [List.getD_eq_getElem?_getD, List.getElem?_eq_getElem h8, Option.getD_some, List.take_append_getElem h8,
    List.take_of_length_le (Nat.le_of_eq hlen)]

/-- What the top column holds above its limb is carried past the nine limbs. -/
theorem val_split_top : val ts = val (ts.take 8 ++ [ts.getD 8 0 % 2 ^ 29]) + ts.getD 8 0 / 2 ^ 29 * 2 ^ 261 := by
  have h8 : (ts.take 8).length = 8 := by simp [hlen]
  have hval := congrArg val (eq_take_append_getD hlen)
  rw [val_append_singleton, h8] at hval
  rw [val_append_singleton, h8]
  omega

theorem maskedTop_nine_limbs (hlow : ∀ l ∈ ts.take 8, l < 2 ^ 29) :
    (ts.take 8 ++ [ts.getD 8 0 % 2 ^ 29]).length = 9 ∧ ∀ l ∈ ts.take 8 ++ [ts.getD 8 0 % 2 ^ 29], l < 2 ^ 29 := by
  refine ⟨by simp [hlen], fun l hl => ?_⟩
  rcases List.mem_append.mp hl with hl | hl
  · exact hlow l hl
  · rw [List.mem_singleton.mp hl]
    exact Nat.mod_lt _ (by decide)

end

/-- Settles O47: the nine columns are a 262-bit value split at bit 261, and the select subtracts L from that value once. -/
theorem maskedSelectIsConditionalSubtraction : Obligations.MaskedSelectIsConditionalSubtraction := by
  unfold Obligations.MaskedSelectIsConditionalSubtraction
  refine ⟨condSubL_eq_ite, fun ts hlen hlow htop => ?_⟩
  obtain ⟨htllen, htl⟩ := maskedTop_nine_limbs hlen hlow
  have hhi : ts.getD 8 0 / 2 ^ 29 ≤ 1 := by omega
  have hval : val (condSubLimbs ts) = condSubL (val ts) % 2 ^ 261 := by
    rw [val_split_top hlen]
    exact val_selectReduced hhi htllen htl
  obtain ⟨hrlen, hr⟩ := selectReduced_nine_limbs hhi htllen htl
  exact ⟨hval, fun hlt => hval.trans (Nat.mod_eq_of_lt (condSubL_lt hlt)), hrlen, hr⟩

end Sys2Proof.Machine
end

section
/-! PROOFS. The schoolbook product on columns (spec/41_datapath_primitives.md R66): the column sums, weighted, are the double sum over
the limb pairs, which is the product. -/

namespace Sys2Proof.Machine

set_option exponentiation.threshold 600

/-! ### Finite sums -/

/-- The sum of `f 0` to `f (n - 1)`, as the columns and the multiplier sums of Machine/Limbs write it. -/
def sumBelow (n : Nat) (f : Nat → Nat) : Nat := ((List.range n).map f).sum

theorem sumBelow_zero (f : Nat → Nat) : sumBelow 0 f = 0 := rfl

theorem sumBelow_succ (n : Nat) (f : Nat → Nat) : sumBelow (n + 1) f = sumBelow n f + f n := by
  simp only [sumBelow, List.range_succ, List.map_append, List.map_cons, List.map_nil, List.sum_append, List.sum_cons,
    List.sum_nil, Nat.add_zero]

theorem sumBelow_congr {n : Nat} {f g : Nat → Nat} (h : ∀ i, i < n → f i = g i) : sumBelow n f = sumBelow n g :=
  congrArg List.sum (List.map_congr_left fun i hi => h i (List.mem_range.mp hi))

theorem sumBelow_eq_zero {n : Nat} {f : Nat → Nat} (h : ∀ i, i < n → f i = 0) : sumBelow n f = 0 := by
  induction n with
  | zero => rfl
  | succ n ih => rw [sumBelow_succ, ih fun i hi => h i (Nat.lt_succ_of_lt hi), h n n.lt_succ_self]

theorem sumBelow_le {n c : Nat} {f : Nat → Nat} (h : ∀ i, f i ≤ c) : sumBelow n f ≤ n * c := by
  induction n with
  | zero => exact Nat.zero_le _
  | succ n ih =>
    rw [sumBelow_succ, Nat.succ_mul]
    exact Nat.add_le_add ih (h n)

theorem mul_sumBelow (c n : Nat) (f : Nat → Nat) : c * sumBelow n f = sumBelow n fun i => c * f i := by
  induction n with
  | zero => rfl
  | succ n ih => rw [sumBelow_succ, sumBelow_succ, Nat.mul_add, ih]

theorem sumBelow_add (n : Nat) (f g : Nat → Nat) : sumBelow n (fun i => f i + g i) = sumBelow n f + sumBelow n g := by
  induction n with
  | zero => rfl
  | succ n ih => rw [sumBelow_succ, sumBelow_succ, sumBelow_succ, ih, Nat.add_add_add_comm]

theorem sumBelow_comm (m n : Nat) (f : Nat → Nat → Nat) :
    (sumBelow m fun i => sumBelow n fun j => f i j) = sumBelow n fun j => sumBelow m fun i => f i j := by
  induction m with
  | zero => exact (sumBelow_eq_zero fun _ _ => rfl).symm
  | succ m ih => simp only [sumBelow_succ, sumBelow_add, ih]

theorem sumBelow_mul_sumBelow (m n : Nat) (f g : Nat → Nat) :
    sumBelow m f * sumBelow n g = sumBelow m fun i => sumBelow n fun j => f i * g j := by
  rw [Nat.mul_comm, mul_sumBelow]
  exact sumBelow_congr fun i _ => by rw [Nat.mul_comm, mul_sumBelow]

theorem sumBelow_split (m n : Nat) (f : Nat → Nat) : sumBelow (m + n) f = sumBelow m f + sumBelow n fun j => f (m + j) := by
  induction n with
  | zero => rfl
  | succ n ih => rw [← Nat.add_assoc, sumBelow_succ, sumBelow_succ, ih, Nat.add_assoc]

/-- A sum whose terms are zero outside `n` places from the m-th on is the sum over those places. -/
theorem sumBelow_window {m n r : Nat} {f : Nat → Nat} (hbefore : ∀ k, k < m → f k = 0) (hafter : ∀ k, m + n ≤ k → f k = 0) :
    sumBelow (m + n + r) f = sumBelow n fun j => f (m + j) := by
  rw [sumBelow_split, sumBelow_split, sumBelow_eq_zero hbefore, Nat.zero_add]
  exact congrArg _ (sumBelow_eq_zero fun j _ => hafter _ (Nat.le_add_right _ j))

/-! ### Limb vectors as sums -/

theorem val_map_range (f : Nat → Nat) (n : Nat) : val ((List.range n).map f) = sumBelow n fun k => 2 ^ (29 * k) * f k := by
  induction n with
  | zero => rfl
  | succ n ih =>
    rw [List.range_succ, List.map_append, List.map_singleton, val_append_singleton, ih, List.length_map, List.length_range,
      sumBelow_succ]

/-- A register value is the weighted sum of its nine limbs. -/
theorem sumBelow_limbs {v : Nat} (h : v < 2 ^ 261) : (sumBelow 9 fun i => 2 ^ (29 * i) * limb v i) = v := by
  rw [← val_map_range]
  exact val_limbs h

/-! ### The columns -/

/-- The limb product at place i of column k, when the column has one there. -/
def columnTerm (a b k i : Nat) : Nat := if i ≤ k ∧ k - i ≤ 8 then limb a i * limb b (k - i) else 0

theorem productColumn_eq_sumBelow (a b k : Nat) : productColumn a b k = sumBelow 9 (columnTerm a b k) := rfl

theorem columnTerm_of_not {k i : Nat} (h : ¬(i ≤ k ∧ k - i ≤ 8)) (a b : Nat) : columnTerm a b k i = 0 := if_neg h

theorem columnTerm_add {j : Nat} (h : j < 9) (a b i : Nat) : columnTerm a b (i + j) i = limb a i * limb b j := by
  rw [columnTerm, if_pos (by omega), Nat.add_sub_cancel_left]

theorem columnTerm_le (a b k i : Nat) : columnTerm a b k i ≤ (2 ^ 29 - 1) ^ 2 := by
  unfold columnTerm
  split
  · rw [Nat.pow_two]
    exact Nat.mul_le_mul (Nat.le_pred_of_lt (limb_lt a i)) (Nat.le_pred_of_lt (limb_lt b (k - i)))
  · exact Nat.zero_le _

theorem productColumn_le (a b k : Nat) : productColumn a b k ≤ 9 * (2 ^ 29 - 1) ^ 2 := by
  rw [productColumn_eq_sumBelow]
  exact sumBelow_le (columnTerm_le a b k)

/-- No limb pair has i + j = 17. -/
theorem productColumn_last (a b : Nat) : productColumn a b 17 = 0 := by
  rw [productColumn_eq_sumBelow]
  exact sumBelow_eq_zero fun i hi => columnTerm_of_not (by omega) a b

/-- Limb i of `a` meets each limb of `b` in one of the eighteen columns. -/
theorem sumBelow_weighted_columnTerm (a b : Nat) {i : Nat} (hi : i < 9) :
    (sumBelow 18 fun k => 2 ^ (29 * k) * columnTerm a b k i) =
      sumBelow 9 fun j => 2 ^ (29 * i) * limb a i * (2 ^ (29 * j) * limb b j) := by
  obtain ⟨r, hr⟩ : ∃ r, 18 = i + 9 + r := ⟨9 - i, by omega⟩
  rw [hr, sumBelow_window (fun k hk => by rw [columnTerm_of_not (by omega), Nat.mul_zero])
    (fun k hk => by rw [columnTerm_of_not (by omega), Nat.mul_zero])]
  refine sumBelow_congr fun j hj => ?_
  rw [columnTerm_add hj, Nat.mul_add, Nat.pow_add, Nat.mul_mul_mul_comm]

theorem val_productColumns {a b : Nat} (ha : a < 2 ^ 261) (hb : b < 2 ^ 261) : val (productColumns a b) = a * b := by
  calc val (productColumns a b)
      = sumBelow 18 fun k => sumBelow 9 fun i => 2 ^ (29 * k) * columnTerm a b k i := by
        rw [productColumns, val_map_range]
        exact sumBelow_congr fun k _ => by rw [productColumn_eq_sumBelow, mul_sumBelow]
    _ = sumBelow 9 fun i => sumBelow 9 fun j => 2 ^ (29 * i) * limb a i * (2 ^ (29 * j) * limb b j) := by
        rw [sumBelow_comm]
        exact sumBelow_congr fun i hi => sumBelow_weighted_columnTerm a b hi
    _ = a * b := by rw [← sumBelow_mul_sumBelow, sumBelow_limbs ha, sumBelow_limbs hb]

theorem product_lt {a b : Nat} (ha : a < 2 ^ 261) (hb : b < 2 ^ 261) : a * b < 2 ^ 522 :=
  Nat.lt_of_lt_of_eq (Nat.mul_lt_mul'' ha hb) (Nat.pow_add 2 261 261).symm

/-- Settles O42: the columns' weighted sum is the product's double sum, and each has at most nine limb products. -/
theorem productColumnsHoldTheProduct : Obligations.ProductColumnsHoldTheProduct := by
  unfold Obligations.ProductColumnsHoldTheProduct
  intro a b ha hb
  refine ⟨rfl, product_lt ha hb, rfl, val_productColumns ha hb, fun z hz => ?_, productColumn_last a b⟩
  obtain ⟨k, -, rfl⟩ := List.mem_map.mp hz
  exact ⟨productColumn_le a b k, Nat.lt_of_le_of_lt (productColumn_le a b k) (by decide)⟩

end Sys2Proof.Machine
end

section
/-! PROOFS. Montgomery reduction on integers (spec/41_datapath_primitives.md R68, R70): each round divides exactly, so n rounds leave
the t with t·2^(29n) = P + m·L for an m below 2^(29n); the closed form and the properties are read off that equation. -/

namespace Sys2Proof.Machine

set_option exponentiation.threshold 600

/-! ### One round -/

/-- `LFACTOR` is −L⁻¹ modulo 2^29 (spec/10_state.md R16). -/
theorem LFACTOR_mul_L_succ_mod : (Const.LFACTOR * Const.L + 1) % 2 ^ 29 = 0 := by decide

theorem redcMultiplier_lt (t : Nat) : redcMultiplier t < 2 ^ 29 := Nat.mod_lt _ (by decide)

/-- The multiple of L clears the lowest limb (R70 (a)). -/
theorem add_redcMultiplier_mul_L_mod (t : Nat) : (t + redcMultiplier t * Const.L) % 2 ^ 29 = 0 := by
  calc (t + redcMultiplier t * Const.L) % 2 ^ 29
      = (t + t % 2 ^ 29 * Const.LFACTOR * Const.L) % 2 ^ 29 := by
        rw [← Nat.add_mod_mod, redcMultiplier, Nat.mod_mul_mod, Nat.add_mod_mod]
    _ = (t + t * (Const.LFACTOR * Const.L)) % 2 ^ 29 := by
        rw [Nat.mul_assoc, ← Nat.add_mod_mod, Nat.mod_mul_mod, Nat.add_mod_mod]
    _ = t * (Const.LFACTOR * Const.L + 1) % 2 ^ 29 := by rw [Nat.mul_succ, Nat.add_comm]
    _ = 0 := by rw [Nat.mul_mod, LFACTOR_mul_L_succ_mod, Nat.mul_zero, Nat.zero_mod]

theorem redcRound_mul (t : Nat) : redcRound t * 2 ^ 29 = t + redcMultiplier t * Const.L :=
  Nat.div_mul_cancel (Nat.dvd_of_mod_eq_zero (add_redcMultiplier_mul_L_mod t))

/-! ### The rounds together -/

/-- The integer whose limbs are the multipliers of the first `n` rounds: the m of R68 when `n` is 9. -/
def redcQuotient (n p : Nat) : Nat := val ((List.range n).map fun i => redcMultiplier (redcRounds i p))

theorem redcQuotient_succ (n p : Nat) :
    redcQuotient (n + 1) p = redcQuotient n p + 2 ^ (29 * n) * redcMultiplier (redcRounds n p) := by
  rw [redcQuotient, List.range_succ, List.map_append, List.map_singleton, val_append_singleton, List.length_map,
    List.length_range, redcQuotient]

theorem redcQuotient_lt (n p : Nat) : redcQuotient n p < 2 ^ (29 * n) := by
  have h : ∀ l ∈ (List.range n).map fun i => redcMultiplier (redcRounds i p), l < 2 ^ 29 := by
    intro l hl
    obtain ⟨i, -, rfl⟩ := List.mem_map.mp hl
    exact redcMultiplier_lt _
  have hlt := val_lt h
  rwa [List.length_map, List.length_range] at hlt

/-- n rounds add a multiple of L and divide by 2^(29n), exactly. -/
theorem redcRounds_mul (n p : Nat) : redcRounds n p * 2 ^ (29 * n) = p + redcQuotient n p * Const.L := by
  induction n with
  | zero => simp [redcRounds_zero, redcQuotient]
  | succ n ih =>
    calc redcRounds (n + 1) p * 2 ^ (29 * (n + 1))
        = redcRound (redcRounds n p) * 2 ^ 29 * 2 ^ (29 * n) := by rw [redcRounds_succ, limbWeight_succ, Nat.mul_assoc]
      _ = redcRounds n p * 2 ^ (29 * n) + 2 ^ (29 * n) * redcMultiplier (redcRounds n p) * Const.L := by
        rw [redcRound_mul, Nat.add_mul, Nat.mul_right_comm, Nat.mul_comm (redcMultiplier _)]
      _ = p + redcQuotient (n + 1) p * Const.L := by
        rw [ih, redcQuotient_succ, Nat.add_mul, Nat.add_assoc]

theorem redcRounds_nine_mul (p : Nat) : redcRounds 9 p * 2 ^ 261 = p + redcQuotient 9 p * Const.L := redcRounds_mul 9 p

theorem redcQuotient_nine_lt (p : Nat) : redcQuotient 9 p < 2 ^ 261 := redcQuotient_lt 9 p

theorem redc_eq (p : Nat) : redc p = condSubL (redcRounds 9 p) := rfl

/-! ### Bounds (R70 (c), (d)) -/

theorem redcRounds_nine_mul_lt (p : Nat) : redcRounds 9 p * 2 ^ 261 < p + Const.L * 2 ^ 261 := by
  rw [redcRounds_nine_mul, Nat.mul_comm Const.L]
  exact Nat.add_lt_add_left (Nat.mul_lt_mul_of_pos_right (redcQuotient_nine_lt p) L_pos) p

theorem redcRounds_nine_lt {p : Nat} (h : p < 2 ^ 522) : redcRounds 9 p < 2 ^ 261 + Const.L := by
  have := redcRounds_nine_mul_lt p
  omega

theorem redcRounds_nine_lt_of_domain {p : Nat} (h : p < Const.L * 2 ^ 261) : redcRounds 9 p < 2 * Const.L := by
  have := redcRounds_nine_mul_lt p
  omega

theorem redc_lt {p : Nat} (h : p < 2 ^ 522) : redc p < 2 ^ 261 := condSubL_lt (redcRounds_nine_lt h)

theorem redc_lt_L {p : Nat} (h : p < Const.L * 2 ^ 261) : redc p < Const.L :=
  condSubL_lt_L (redcRounds_nine_lt_of_domain h)

/-! ### The closed form (R68) -/

theorem add_mul_add_mul_eq (m n p l : Nat) : m + n * (p + m * l) = m * (n * l + 1) + p * n := by
  rw [Nat.mul_add, Nat.mul_succ]
  ac_rfl

/-- The multipliers' integer is determined modulo 2^261 by P + m·L being a multiple of 2^261. -/
theorem redcQuotient_nine_eq {negInv : Nat} (hinv : negInv * Const.L % 2 ^ 261 = 2 ^ 261 - 1) (p : Nat) :
    redcQuotient 9 p = p * negInv % 2 ^ 261 := by
  have hzero : (negInv * Const.L + 1) % 2 ^ 261 = 0 := by omega
  obtain ⟨q, hq⟩ := Nat.dvd_of_mod_eq_zero hzero
  calc redcQuotient 9 p
      = redcQuotient 9 p % 2 ^ 261 := (Nat.mod_eq_of_lt (redcQuotient_nine_lt p)).symm
    _ = (redcQuotient 9 p + negInv * redcRounds 9 p * 2 ^ 261) % 2 ^ 261 := (Nat.add_mul_mod_self_right ..).symm
    _ = (redcQuotient 9 p * (negInv * Const.L + 1) + p * negInv) % 2 ^ 261 := by
      rw [Nat.mul_assoc negInv, redcRounds_nine_mul, add_mul_add_mul_eq]
    _ = p * negInv % 2 ^ 261 := by rw [hq, Nat.mul_left_comm, Nat.mul_add_mod]

/-- Settles O44: the multipliers' integer is the m of the closed form, and the rounds' equation gives the exact division. -/
theorem redcHasItsClosedForm : Obligations.RedcHasItsClosedForm := by
  unfold Obligations.RedcHasItsClosedForm
  intro negInv hinv p hp m t
  have hm : redcQuotient 9 p = m := redcQuotient_nine_eq hinv p
  have hmul := redcRounds_nine_mul p
  rw [hm] at hmul
  have ht : redcRounds 9 p = t := by
    change _ = (p + m * Const.L) / 2 ^ 261
    rw [← hmul, Nat.mul_div_cancel _ (by decide)]
  refine ⟨hm, by rw [← hmul, Nat.mul_mod_left], ht, ht ▸ redcRounds_nine_lt hp, ?_⟩
  rw [redc_eq, ht, condSubL_eq_ite]

/-! ### Residues (R70 (b)) -/

/-- RADIX⁻¹ modulo L (spec/10_state.md R16). -/
def radixInverse : Nat := 0x064edb637937f48c1b0a73aa1c7fd1b5fd934be6d1d6d67ac7421b8f04c727e2

theorem radix_mul_radixInverse_mod : 2 ^ 261 * radixInverse % Const.L = 1 := by decide

theorem R_mul_radixInverse_mod : Const.R * radixInverse % Const.L = 1 := by decide

theorem redcRounds_nine_mod (p : Nat) : redcRounds 9 p % Const.L = p * radixInverse % Const.L := by
  calc redcRounds 9 p % Const.L
      = redcRounds 9 p * (2 ^ 261 * radixInverse % Const.L) % Const.L := by rw [radix_mul_radixInverse_mod, Nat.mul_one]
    _ = (p + redcQuotient 9 p * Const.L) * radixInverse % Const.L := by
        rw [Nat.mul_mod_mod, ← Nat.mul_assoc, redcRounds_nine_mul]
    _ = p * radixInverse % Const.L := by
        rw [Nat.add_mul, Nat.mul_right_comm, Nat.add_mul_mod_self_right]

theorem redc_mod (p : Nat) : redc p % Const.L = p * radixInverse % Const.L :=
  (condSubL_mod _).trans (redcRounds_nine_mod p)

/-- In the reduction's domain `REDC` is the residue. -/
theorem redc_eq_mod {p : Nat} (h : p < Const.L * 2 ^ 261) : redc p = p * radixInverse % Const.L := by
  rw [← Nat.mod_eq_of_lt (redc_lt_L h)]
  exact redc_mod p

/-! ### Particular values (R70 (e)) and the domain (R70 (f)) -/

theorem redc_mul_R_mod {x : Nat} (hx : x < Const.L) : redc (x * Const.R % Const.L) = x := by
  have hdom : x * Const.R % Const.L < Const.L * 2 ^ 261 :=
    Nat.lt_of_lt_of_le (Nat.mod_lt _ L_pos) (Nat.le_mul_of_pos_right _ (Nat.two_pow_pos 261))
  calc redc (x * Const.R % Const.L)
      = x * Const.R % Const.L * radixInverse % Const.L := redc_eq_mod hdom
    _ = x * (Const.R * radixInverse % Const.L) % Const.L := by rw [Nat.mod_mul_mod, Nat.mul_assoc, Nat.mul_mod_mod]
    _ = x := by rw [R_mul_radixInverse_mod, Nat.mul_one, Nat.mod_eq_of_lt hx]

theorem mul_lt_domain {a b : Nat} (ha : a < 2 ^ 256) (hb : b < 2 ^ 256) : a * b < Const.L * 2 ^ 261 :=
  Nat.lt_trans (Nat.mul_lt_mul'' ha hb) (by decide)

/-- The largest input in the domain: the conditional subtraction happens. -/
theorem redc_domain_pred : redc (Const.L * 2 ^ 261 - 1) = Const.L - radixInverse := by decide

theorem L_le_redcRounds_domain_pred : Const.L ≤ redcRounds 9 (Const.L * 2 ^ 261 - 1) := by decide

/-- The smallest input out of the domain. -/
theorem redcRounds_domain : redcRounds 9 (Const.L * 2 ^ 261) = Const.L := by decide

theorem redc_domain : redc (Const.L * 2 ^ 261) = 0 := by
  rw [redc_eq, redcRounds_domain, condSubL_eq_ite, if_pos (Nat.le_refl _), Nat.sub_self]

/-- Settles O45: every property of `REDC` is read off the rounds' equation, the particular values evaluated. -/
theorem redcProperties : Obligations.RedcProperties := by
  unfold Obligations.RedcProperties
  intro rinv
  refine ⟨fun p hp => ⟨fun i _ => ?exactDivision, ?equation, redcRounds_nine_mod p, redc_mod p, redcRounds_nine_mul_lt p,
    ?domain, redcRounds_nine_lt hp, redc_lt hp⟩, ?zero, ?R, ?RR, fun x => redc_mul_R_mod, redc_domain_pred,
    L_le_redcRounds_domain_pred, redc_domain, redcRounds_domain, ?size, fun a b => mul_lt_domain⟩
  case exactDivision => exact add_redcMultiplier_mul_L_mod _
  case equation => exact ⟨redcQuotient 9 p, redcQuotient_nine_lt p, redcRounds_nine_mul p⟩
  case domain => exact fun hdom => ⟨redcRounds_nine_lt_of_domain hdom, redc_lt_L hdom, redc_eq_mod hdom⟩
  case zero => decide
  case R => decide
  case RR => decide
  case size => decide

end Sys2Proof.Machine
end

section
/-! PROOFS. `add` and `sub` (spec/42_addsub.md): the word, the value each stores, the limb level that computes it, and the rows of the
two range tables. -/

namespace Sys2Proof

/-! ### The words -/

/-- Format `R3`: the unused fields are zero, so a word is its opcode and its three registers (spec/30_encoding.md R46). -/
theorem toNat_toWord_fieldsR3 (opc : BitVec 8) (rd ra rb : RegId) :
    (fieldsR3 opc rd ra rb).toWord.toNat =
      opc.toNat * 2 ^ 24 + rd.val * 2 ^ 20 + ra.val * 2 ^ 16 + rb.val * 2 ^ 12 := by
  rw [Fields.toNat_toWord]
  simp [fieldsR3]

theorem toNat_encode_add (rd ra rb : RegId) :
    (encode (.add rd ra rb)).toNat = 0x01000000 + rd.val * 2 ^ 20 + ra.val * 2 ^ 16 + rb.val * 2 ^ 12 :=
  toNat_toWord_fieldsR3 0x01 rd ra rb

theorem toNat_encode_sub (rd ra rb : RegId) :
    (encode (.sub rd ra rb)).toNat = 0x02000000 + rd.val * 2 ^ 20 + ra.val * 2 ^ 16 + rb.val * 2 ^ 12 :=
  toNat_toWord_fieldsR3 0x02 rd ra rb

namespace Machine

set_option exponentiation.threshold 300

/-! ### A completed register write -/

theorem complete_writeReg (s : State) (rd : RegId) (v : Nat) :
    complete (s.writeReg rd v) = .next { s with regs := s.regs.set rd (BitVec.ofNat 261 v), cc := .ok } := rfl

theorem readReg_of_complete_writeReg {s t : State} {rd : RegId} {v : Nat} (hv : v < 2 ^ 261)
    (h : complete (s.writeReg rd v) = .next t) : t.readReg rd = v := by
  rw [complete_next h, readReg_setCC, readReg_writeReg_same, Nat.mod_eq_of_lt hv]

/-! ### The value of `add` (R80) -/

theorem condSubL_eq_sub_ite (t : Nat) : condSubL t = t - if Const.L ≤ t then Const.L else 0 := by
  rw [condSubL_eq_ite]
  split
  · rfl
  · exact (Nat.sub_zero t).symm

theorem addValue_eq (a b : Nat) : addValue a b = (a + b - if Const.L ≤ a + b then Const.L else 0) % 2 ^ 261 := by
  rw [addValue, condSubL_eq_sub_ite]

theorem addValue_lt (a b : Nat) : addValue a b < 2 ^ 261 := Nat.mod_lt _ (Nat.two_pow_pos 261)

theorem addValue_comm (a b : Nat) : addValue a b = addValue b a := by
  rw [addValue, Nat.add_comm, addValue]

theorem exec_add_comm (rd ra rb : RegId) (s : State) : exec (.add rd ra rb) s = exec (.add rd rb ra) s := by
  rw [exec_add, exec_add, addValue_comm]

theorem addLimbs_eq (x y : List Nat) : addLimbs x y = selectReduced (limbAdd x y).2 (limbAdd x y).1 := rfl

theorem val_addLimbs_limbs {a b : Nat} (ha : a < 2 ^ 261) (hb : b < 2 ^ 261) :
    val (addLimbs (limbs a) (limbs b)) = addValue a b := by
  obtain ⟨hsum, hcarry, hlen, hlimbs⟩ :=
    limbAdd_spec (limbs_length a) (limbs_length b) (fun _ => limbs_lt) (fun _ => limbs_lt)
  rw [addLimbs_eq, val_selectReduced hcarry hlen hlimbs, ← hsum, val_limbs ha, val_limbs hb, addValue]

/-- Settles O23: the model's value is the rule's, and the masked select takes the carry as the sum's bit 261. -/
theorem addStoresConditionallyReducedSum : Obligations.AddStoresConditionallyReducedSum := by
  unfold Obligations.AddStoresConditionallyReducedSum
  intro rd ra rb s a b r
  have hr : addValue a b = r := addValue_eq a b
  refine ⟨toNat_encode_add rd ra rb, ?_, ?_⟩
  · rw [exec_add, complete_writeReg, hr]
  · rw [val_addLimbs_limbs (readReg_lt s ra) (readReg_lt s rb), hr]

/-! ### The rows of R81 -/

/-- Below 2^261 + L nothing is cut from the result. -/
theorem addValue_eq_condSubL {a b : Nat} (h : a + b < 2 ^ 261 + Const.L) : addValue a b = condSubL (a + b) :=
  Nat.mod_eq_of_lt (condSubL_lt h)

theorem addValue_of_lt_L {a b : Nat} (h : a + b < Const.L) : addValue a b = a + b := by
  rw [addValue_eq_condSubL (by omega), condSubL_eq_ite, if_neg (Nat.not_le_of_lt h)]

theorem addValue_of_L_le {a b : Nat} (hle : Const.L ≤ a + b) (hlt : a + b < 2 ^ 261 + Const.L) :
    addValue a b = a + b - Const.L := by
  rw [addValue_eq_condSubL hlt, condSubL_eq_ite, if_pos hle]

theorem addValue_of_wrap {a b : Nat} (ha : a < 2 ^ 261) (hb : b < 2 ^ 261) (h : 2 ^ 261 + Const.L ≤ a + b) :
    addValue a b = a + b - Const.L - 2 ^ 261 := by
  rw [addValue, condSubL_eq_ite, if_pos (by omega)]
  omega

theorem addValue_mod_L {a b : Nat} (h : a + b < 2 ^ 261 + Const.L) : addValue a b % Const.L = (a + b) % Const.L := by
  rw [addValue_eq_condSubL h, condSubL_mod]

theorem addValue_eq_mod_L {a b : Nat} (h : a + b < 2 * Const.L) : addValue a b = (a + b) % Const.L := by
  have hL := L_lt
  have hlt : a + b < 2 ^ 261 + Const.L := by omega
  have hreduced : addValue a b < Const.L := by
    rw [addValue_eq_condSubL hlt]
    exact condSubL_lt_L h
  rw [← addValue_mod_L hlt, Nat.mod_eq_of_lt hreduced]

theorem addValue_eq_ite {a b : Nat} (h : a + b < 2 * Const.L) :
    addValue a b = if a + b < Const.L then a + b else a + b - Const.L := by
  have hL := L_lt
  split
  · exact addValue_of_lt_L ‹_›
  · exact addValue_of_L_le (by omega) (by omega)

/-- `R` is the residue of the radix (spec/10_state.md R15). -/
theorem radix_mod_L : 2 ^ 261 % Const.L = Const.R := by decide

/-- Where the sum wraps, the residue is off by the radix. -/
theorem addValue_add_R_mod {a b : Nat} (ha : a < 2 ^ 261) (hb : b < 2 ^ 261) (h : 2 ^ 261 + Const.L ≤ a + b) :
    (addValue a b + Const.R) % Const.L = (a + b) % Const.L := by
  have hsum : a + b = addValue a b + 2 ^ 261 + Const.L := by
    rw [addValue_of_wrap ha hb h]
    omega
  rw [← radix_mod_L, Nat.add_mod_mod, hsum, Nat.add_mod_right]

/-- Settles O24: each row is a bound on the sum, which says whether L was subtracted and whether bit 261 was cut. -/
theorem addResultRanges : Obligations.AddResultRanges := by
  unfold Obligations.AddResultRanges
  intro rd ra rb s
  have ha := readReg_lt s ra
  have hb := readReg_lt s rb
  have hL := L_lt
  refine ⟨_, exec_add rd ra rb s, exec_add_comm rd rb ra s, ?_⟩
  rw [readReg_of_complete_writeReg (addValue_lt _ _) rfl]
  generalize s.readReg ra = a at ha ⊢
  generalize s.readReg rb = b at hb ⊢
  refine ⟨fun haL hbL => ?reduced, fun hlt => ?below, fun hle hlt => ?unreduced, fun hwrap => ?wrapped, by omega⟩
  case reduced => exact addValue_eq_mod_L (by omega)
  case below => exact ⟨addValue_eq_mod_L hlt, addValue_eq_ite hlt⟩
  case unreduced =>
    have hr := addValue_of_L_le (by omega) hlt
    exact ⟨hr, addValue_mod_L hlt, by omega⟩
  case wrapped => exact ⟨addValue_of_wrap ha hb hwrap, addValue_add_R_mod ha hb hwrap⟩

/-! ### The value of `sub` (R82) -/

theorem subValue_lt (a b : Nat) : subValue a b < 2 ^ 261 := by
  rw [subValue]
  omega

theorem subValue_of_le {a b : Nat} (ha : a < 2 ^ 261) (h : b ≤ a) : subValue a b = a - b := by
  rw [subValue, if_neg (Nat.not_lt_of_le h)]
  omega

theorem subValue_of_borrow {a b : Nat} (hlt : a < b) (hle : b ≤ a + Const.L) : subValue a b = a + Const.L - b := by
  have hL := L_lt
  rw [subValue, if_pos hlt]
  omega

theorem subValue_of_wrap {a b : Nat} (hb : b < 2 ^ 261) (h : a + Const.L < b) :
    subValue a b = a + Const.L + 2 ^ 261 - b := by
  rw [subValue, if_pos (by omega)]
  omega

/-! ### The limb level of `sub` -/

/-- A limb masked by a select bit is the limb or zero. -/
theorem and_selectMask {bw : Nat} (hbw : bw ≤ 1) {l : Nat} (hl : l < 2 ^ 29) : l &&& selectMask bw = bw * l := by
  obtain rfl | rfl := Nat.le_one_iff_eq_zero_or_eq_one.mp hbw
  · rw [Nat.zero_mul]
    exact Nat.and_zero l
  · rw [Nat.one_mul]
    exact (Nat.and_two_pow_sub_one_eq_mod l 29).trans (Nat.mod_eq_of_lt hl)

theorem val_map_mul (c : Nat) (x : List Nat) : val (x.map fun l => c * l) = c * val x := by
  induction x with
  | nil => rfl
  | cons l ls ih => rw [List.map_cons, val_cons, val_cons, ih, Nat.mul_add, Nat.mul_left_comm]

/-- The vector that the second chain of `sub` adds. -/
def maskedL (bw : Nat) : List Nat := (limbs Const.L).map fun l => l &&& selectMask bw

theorem subLimbs_eq (x y : List Nat) : subLimbs x y = (limbAdd (limbSub x y).1 (maskedL (limbSub x y).2)).1 := rfl

theorem maskedL_length (bw : Nat) : (maskedL bw).length = 9 := by
  rw [maskedL, List.length_map, limbs_length]

theorem maskedL_lt (bw : Nat) : ∀ l ∈ maskedL bw, l < 2 ^ 29 := by
  intro l hl
  obtain ⟨k, hk, rfl⟩ := List.mem_map.mp hl
  exact Nat.lt_of_le_of_lt Nat.and_le_left (limbs_lt hk)

theorem val_maskedL {bw : Nat} (hbw : bw ≤ 1) : val (maskedL bw) = bw * Const.L := by
  have hmap : maskedL bw = (limbs Const.L).map fun l => bw * l :=
    List.map_congr_left fun _ hl => and_selectMask hbw (limbs_lt hl)
  rw [hmap, val_map_mul, val_limbs_L]

/-- The borrow lends 2^261 and the discarded carry of the second chain drops multiples of it, so the value is right modulo 2^261. -/
theorem val_subLimbs_limbs {a b : Nat} (ha : a < 2 ^ 261) (hb : b < 2 ^ 261) :
    val (subLimbs (limbs a) (limbs b)) = subValue a b := by
  obtain ⟨hdiff, hbw, hdlen, hd⟩ :=
    limbSub_spec (limbs_length a) (limbs_length b) (fun _ => limbs_lt) (fun _ => limbs_lt)
  have hborrow := limbSub_borrow_eq_one_iff (limbs_length a) (limbs_length b) (fun _ => limbs_lt) (fun _ => limbs_lt)
  rw [val_limbs ha, val_limbs hb] at hdiff hborrow
  rw [subLimbs_eq]
  generalize (limbSub (limbs a) (limbs b)).1 = d at hdiff hdlen hd ⊢
  generalize (limbSub (limbs a) (limbs b)).2 = bw at hdiff hbw hborrow ⊢
  obtain ⟨hsum, -, hrlen, hr⟩ := limbAdd_spec hdlen (maskedL_length bw) hd (maskedL_lt bw)
  have hrlt := val_lt_of_nine_limbs hrlen hr
  rw [val_maskedL hbw] at hsum
  rw [subValue]
  obtain rfl | rfl := Nat.le_one_iff_eq_zero_or_eq_one.mp hbw
  · rw [if_neg (by omega)]
    omega
  · rw [if_pos (hborrow.mp rfl)]
    omega

/-- Settles O25: the model's value is the rule's, and the masked second chain adds L exactly on borrow. -/
theorem subStoresDifferenceWithOneAddBack : Obligations.SubStoresDifferenceWithOneAddBack := by
  unfold Obligations.SubStoresDifferenceWithOneAddBack
  intro rd ra rb s
  exact ⟨toNat_encode_sub rd ra rb, exec_sub rd ra rb s, val_subLimbs_limbs (readReg_lt s ra) (readReg_lt s rb)⟩

/-! ### The rows of R83 -/

theorem subValue_eq_ite {a b : Nat} (ha : a < 2 ^ 261) (hle : b ≤ a + Const.L) :
    subValue a b = if b ≤ a then a - b else a + Const.L - b := by
  split
  · exact subValue_of_le ha ‹_›
  · exact subValue_of_borrow (by omega) hle

/-- A difference between -L and L comes out as its residue. -/
theorem subValue_eq_emod_L {a b : Nat} (ha : a < 2 ^ 261) (hle : b ≤ a + Const.L) (hlt : a < b + Const.L) :
    (subValue a b : Int) = ((a : Int) - b) % Const.L := by
  rcases Nat.lt_or_ge a b with hab | hba
  · rw [subValue_of_borrow hab hle, ← Int.add_emod_right, Int.emod_eq_of_lt (by omega) (by omega)]
    omega
  · rw [subValue_of_le ha hba, Int.emod_eq_of_lt (by omega) (by omega)]
    omega

/-- Where the difference wraps, the residue is off by the radix. -/
theorem subValue_emod_of_wrap {a b : Nat} (hb : b < 2 ^ 261) (h : a + Const.L < b) :
    (subValue a b : Int) % Const.L = ((a : Int) - b + Const.R) % Const.L := by
  have hvalue : (subValue a b : Int) = (a : Int) - b + (2 ^ 261 : Nat) + Const.L := by
    rw [subValue_of_wrap hb h]
    omega
  rw [hvalue, Int.add_emod_right, ← radix_mod_L, Int.natCast_emod, Int.add_emod_emod]

/-- The source's inverse law. -/
theorem subValue_addValue {a b : Nat} (ha : a < Const.L) (hb : b < Const.L) : subValue (addValue a b) b = a := by
  have hL := L_lt
  rcases Nat.lt_or_ge (a + b) Const.L with hlt | hge
  · rw [addValue_of_lt_L hlt, subValue_of_le (by omega) (by omega), Nat.add_sub_cancel]
  · rw [addValue_of_L_le hge (by omega), subValue_of_borrow (by omega) (by omega), Nat.sub_add_cancel hge, Nat.add_sub_cancel]

theorem readReg_of_exec_sub {rd ra rb : RegId} {s t : State} (h : exec (.sub rd ra rb) s = .next t) :
    t.readReg rd = subValue (s.readReg ra) (s.readReg rb) :=
  readReg_of_complete_writeReg (subValue_lt _ _) h

/-- One way round s2 receives 1, the other way L - 1. -/
theorem exec_sub_not_comm : ∃ s, exec (.sub 2 0 1) s ≠ exec (.sub 2 1 0) s := by
  refine ⟨(State.reset.writeReg 0 1).writeReg 1 0, fun h => ?_⟩
  have hvalues := readReg_of_exec_sub (h.symm.trans (exec_sub 2 0 1 _))
  rw [readReg_of_exec_sub (exec_sub 2 0 1 _), readReg_writeReg_same, readReg_writeReg_ne _ (by decide),
    readReg_writeReg_same] at hvalues
  exact absurd hvalues (by decide)

theorem exec_sub_exec_add {rd ra rb : RegId} {s t u : State} (hne : rd ≠ rb) (ha : s.readReg ra < Const.L)
    (hb : s.readReg rb < Const.L) (hadd : exec (.add rd ra rb) s = .next t) (hsub : exec (.sub rd rd rb) t = .next u) :
    u.readReg rd = s.readReg ra := by
  have hsum : t.readReg rd = addValue (s.readReg ra) (s.readReg rb) := readReg_of_complete_writeReg (addValue_lt _ _) hadd
  have hkept : t.readReg rb = s.readReg rb := by
    rw [complete_next hadd, readReg_setCC, readReg_writeReg_ne _ hne.symm]
  rw [readReg_of_exec_sub hsub, hsum, hkept, subValue_addValue ha hb]

/-- Settles O26: each row is a bound on the difference, which says whether L was added and whether the result was cut. -/
theorem subResultRanges : Obligations.SubResultRanges := by
  unfold Obligations.SubResultRanges
  refine ⟨fun rd ra rb s => ⟨_, exec_sub rd ra rb s, ?_⟩, exec_sub_not_comm, fun rd ra rb s t u => exec_sub_exec_add⟩
  have ha := readReg_lt s ra
  have hb := readReg_lt s rb
  rw [readReg_of_exec_sub (exec_sub rd ra rb s)]
  refine ⟨fun haL hbL => ?reduced, fun hle hlt => ?small, fun h => ?unreduced, fun h => ?wrapped, fun h => ?equal⟩
  case reduced => exact subValue_eq_emod_L ha (by omega) (by omega)
  case small => exact ⟨subValue_eq_emod_L ha hle hlt, subValue_eq_ite ha hle⟩
  case unreduced =>
    have hr := subValue_of_le ha (Nat.le_of_add_right_le h)
    exact ⟨hr, by omega⟩
  case wrapped =>
    have hr := subValue_of_wrap hb h
    exact ⟨hr, by omega, subValue_lt _ _, subValue_emod_of_wrap hb h⟩
  case equal => rw [h, subValue_of_le hb (Nat.le_refl _), Nat.sub_self]

end Machine

end Sys2Proof
end

section
/-! PROOFS. The multiplication commands (spec/43_multiply.md): the words, the residue that each value function computes, and the
identities between them. A reduction multiplies by RADIX⁻¹, so every identity is a count of factors RADIX and RADIX⁻¹. -/

namespace Sys2Proof

/-! ### The words -/

/-- Format `R2`: a word is its opcode and its two registers (spec/30_encoding.md R46). -/
theorem toNat_toWord_fieldsR2 (opc : BitVec 8) (rd ra : RegId) :
    (fieldsR2 opc rd ra).toWord.toNat = opc.toNat * 2 ^ 24 + rd.val * 2 ^ 20 + ra.val * 2 ^ 16 := by
  rw [Fields.toNat_toWord]
  simp [fieldsR2]

namespace Machine

set_option exponentiation.threshold 600

/-! ### Factors RADIX and RADIX⁻¹ modulo L -/

theorem RR_mul_radixInverse_mod : Const.RR * radixInverse % Const.L = Const.R := by decide

theorem mul_radix_mul_radixInverse_mod (x : Nat) : x * 2 ^ 261 * radixInverse % Const.L = x % Const.L := by
  rw [Nat.mul_assoc, ← Nat.mul_mod_mod, radix_mul_radixInverse_mod, Nat.mul_one]

theorem mul_radixInverse_mul_radix_mod (x : Nat) : x * radixInverse * 2 ^ 261 % Const.L = x % Const.L := by
  rw [Nat.mul_right_comm, mul_radix_mul_radixInverse_mod]

theorem mul_R_mod (x : Nat) : x * Const.R % Const.L = x * 2 ^ 261 % Const.L := by
  rw [← radix_mod_L, Nat.mul_mod_mod]

theorem mul_RR_mul_radixInverse_mod (x : Nat) : x * Const.RR * radixInverse % Const.L = x * 2 ^ 261 % Const.L := by
  rw [Nat.mul_assoc, ← Nat.mul_mod_mod, RR_mul_radixInverse_mod, mul_R_mod]

/-! ### Multiplication by the radix moves every residue but 0 (R91 (g)) -/

theorem coprime_L_radix_pred : Nat.Coprime Const.L (2 ^ 261 - 1) := by decide

/-- A residue fixed by the radix is killed by 2^261 - 1, which is invertible modulo L. -/
theorem mod_L_eq_zero_of_mul_radix_mod {x : Nat} (h : x * 2 ^ 261 % Const.L = x % Const.L) : x % Const.L = 0 := by
  have hdvd : Const.L ∣ x * 2 ^ 261 - x := Nat.dvd_of_mod_eq_zero (Nat.sub_mod_eq_zero_of_mod_eq h)
  rw [← Nat.mul_sub_one] at hdvd
  exact Nat.mod_eq_zero_of_dvd (coprime_L_radix_pred.dvd_of_dvd_mul_right hdvd)

theorem mul_radix_mod_eq_self_iff (x : Nat) : x * 2 ^ 261 % Const.L = x ↔ x = 0 := by
  constructor
  · intro h
    have hx : x % Const.L = x := Nat.mod_eq_of_lt (h ▸ Nat.mod_lt _ L_pos)
    exact hx ▸ mod_L_eq_zero_of_mul_radix_mod (h.trans hx.symm)
  · rintro rfl
    rw [Nat.zero_mul, Nat.zero_mod]

/-! ### The value of `mmul` (R87) -/

theorem mmulValue_eq (a b : Nat) : mmulValue a b = redc (a * b) := rfl

theorem mmulValue_comm (a b : Nat) : mmulValue a b = mmulValue b a := by
  rw [mmulValue_eq, Nat.mul_comm, mmulValue_eq]

theorem mmulValue_lt {a b : Nat} (ha : a < 2 ^ 261) (hb : b < 2 ^ 261) : mmulValue a b < 2 ^ 261 := redc_lt (product_lt ha hb)

theorem mmulValue_mod (a b : Nat) : mmulValue a b % Const.L = a * b * radixInverse % Const.L := redc_mod (a * b)

theorem mmulValue_mul_radix_mod (a b : Nat) : mmulValue a b * 2 ^ 261 % Const.L = a * b % Const.L := by
  rw [← Nat.mod_mul_mod, mmulValue_mod, Nat.mod_mul_mod, mul_radixInverse_mul_radix_mod]

theorem mmulValue_eq_mod {a b : Nat} (h : a * b < Const.L * 2 ^ 261) :
    mmulValue a b = a * b * radixInverse % Const.L := redc_eq_mod h

/-- Out of the domain the conditional subtraction takes place. -/
theorem mmulValue_add_L {a b : Nat} (h : Const.L * 2 ^ 261 ≤ a * b) : mmulValue a b + Const.L = redcRounds 9 (a * b) := by
  have hmul := redcRounds_nine_mul (a * b)
  have hle : Const.L ≤ redcRounds 9 (a * b) :=
    Nat.le_of_mul_le_mul_right (by omega) (Nat.two_pow_pos 261)
  rw [mmulValue_eq, redc_eq, condSubL_eq_ite, if_pos hle, Nat.sub_add_cancel hle]

/-- One operand at most L keeps any product with a register value in the domain. -/
theorem mul_lt_domain_of_le_L {a b : Nat} (ha : a < 2 ^ 261) (hb : b ≤ Const.L) : a * b < Const.L * 2 ^ 261 := by
  rw [Nat.mul_comm Const.L]
  exact Nat.mul_lt_mul_of_lt_of_le ha hb L_pos

theorem mmulValue_R {a : Nat} (ha : a < 2 ^ 261) : mmulValue a Const.R = a % Const.L := by
  rw [mmulValue_eq_mod (mul_lt_domain_of_le_L ha (by decide)), ← Nat.mod_mul_mod, mul_R_mod, Nat.mod_mul_mod,
    mul_radix_mul_radixInverse_mod]

/-! ### The values of `tomont` and `frommont` (R89, R90) -/

theorem tomontValue_eq_mmulValue (x : Nat) : tomontValue x = mmulValue x Const.RR := rfl

theorem frommontValue_eq_mmulValue (y : Nat) : frommontValue y = mmulValue y 1 := by
  rw [mmulValue_eq, Nat.mul_one, frommontValue]

theorem tomontValue_eq_mod {x : Nat} (hx : x < 2 ^ 261) : tomontValue x = x * 2 ^ 261 % Const.L := by
  rw [tomontValue_eq_mmulValue, mmulValue_eq_mod (mul_lt_domain_of_le_L hx (by decide)), mul_RR_mul_radixInverse_mod]

theorem frommontValue_eq_mod {y : Nat} (hy : y < 2 ^ 261) : frommontValue y = y * radixInverse % Const.L := by
  rw [frommontValue_eq_mmulValue, mmulValue_eq_mod (mul_lt_domain_of_le_L hy (by decide)), Nat.mul_one]

theorem tomontValue_lt {x : Nat} (hx : x < 2 ^ 261) : tomontValue x < Const.L := by
  rw [tomontValue_eq_mod hx]
  exact Nat.mod_lt _ L_pos

theorem frommontValue_lt {y : Nat} (hy : y < 2 ^ 261) : frommontValue y < Const.L := by
  rw [frommontValue_eq_mod hy]
  exact Nat.mod_lt _ L_pos

/-! ### The value of `mul` and `sqr` (R85, R86) -/

theorem mulValue_eq_tomontValue (a b : Nat) : mulValue a b = tomontValue (mmulValue a b) := rfl

theorem mulValue_comm (a b : Nat) : mulValue a b = mulValue b a := by
  rw [mulValue_eq_tomontValue, mmulValue_comm, mulValue_eq_tomontValue]

/-- The first reduction divides by RADIX, the second, through RR, multiplies by it. -/
theorem mulValue_eq_mod {a b : Nat} (ha : a < 2 ^ 261) (hb : b < 2 ^ 261) : mulValue a b = a * b % Const.L := by
  rw [mulValue_eq_tomontValue, tomontValue_eq_mod (mmulValue_lt ha hb), mmulValue_mul_radix_mod]

theorem mulValue_lt {a b : Nat} (ha : a < 2 ^ 261) (hb : b < 2 ^ 261) : mulValue a b < Const.L := by
  rw [mulValue_eq_mod ha hb]
  exact Nat.mod_lt _ L_pos

/-! ### Identities between the value functions (R91) -/

theorem lt_radix_of_lt_L {x : Nat} (h : x < Const.L) : x < 2 ^ 261 := Nat.lt_trans h (Nat.lt_trans L_lt (by decide))

/-- R91 (c). -/
theorem mulValue_eq_mmulValue_tomontValue {a b : Nat} (ha : a < 2 ^ 261) (hb : b < 2 ^ 261) :
    mulValue a b = mmulValue (tomontValue a) b := by
  have hdom : tomontValue a * b < Const.L * 2 ^ 261 := Nat.mul_lt_mul'' (tomontValue_lt ha) hb
  calc mulValue a b
      = a * b * 2 ^ 261 * radixInverse % Const.L := by rw [mul_radix_mul_radixInverse_mod, mulValue_eq_mod ha hb]
    _ = a * 2 ^ 261 % Const.L * (b * radixInverse) % Const.L := by
      rw [Nat.mod_mul_mod, Nat.mul_right_comm a b, Nat.mul_assoc (a * 2 ^ 261)]
    _ = mmulValue (tomontValue a) b := by rw [mmulValue_eq_mod hdom, tomontValue_eq_mod ha, Nat.mul_assoc]

/-- R91 (e), one way. -/
theorem frommontValue_tomontValue {a : Nat} (ha : a < 2 ^ 261) : frommontValue (tomontValue a) = a % Const.L := by
  rw [frommontValue_eq_mod (lt_radix_of_lt_L (tomontValue_lt ha)), tomontValue_eq_mod ha, Nat.mod_mul_mod,
    mul_radix_mul_radixInverse_mod]

/-- R91 (e), the other way. -/
theorem tomontValue_frommontValue {a : Nat} (ha : a < 2 ^ 261) : tomontValue (frommontValue a) = a % Const.L := by
  rw [tomontValue_eq_mod (lt_radix_of_lt_L (frommontValue_lt ha)), frommontValue_eq_mod ha, Nat.mod_mul_mod,
    mul_radixInverse_mul_radix_mod]

/-- R91 (d): the product of converted operands is the product with one of them, converted. -/
theorem frommontValue_mmulValue_tomontValue {a b : Nat} (ha : a < 2 ^ 261) (hb : b < 2 ^ 261) :
    frommontValue (mmulValue (tomontValue a) (tomontValue b)) = mulValue a b := by
  have htb := lt_radix_of_lt_L (tomontValue_lt hb)
  have hconverted : mmulValue (tomontValue a) (tomontValue b) = tomontValue (mulValue a b) := by
    rw [← mulValue_eq_mmulValue_tomontValue ha htb, mulValue_eq_mod ha htb, tomontValue_eq_mod hb,
      tomontValue_eq_mod (lt_radix_of_lt_L (mulValue_lt ha hb)), mulValue_eq_mod ha hb, Nat.mul_mod_mod, Nat.mod_mul_mod,
      Nat.mul_assoc]
  rw [hconverted, frommontValue_tomontValue (lt_radix_of_lt_L (mulValue_lt ha hb)), Nat.mod_eq_of_lt (mulValue_lt ha hb)]

/-- R91 (g). -/
theorem tomontValue_ne_self {a : Nat} (ha : a < 2 ^ 261) (hne : a ≠ 0) : tomontValue a ≠ a := by
  rw [tomontValue_eq_mod ha]
  exact mt (mul_radix_mod_eq_self_iff a).mp hne

/-! ### Equalities between commands -/

theorem exec_mul_comm (rd ra rb : RegId) (s : State) : exec (.mul rd ra rb) s = exec (.mul rd rb ra) s := by
  rw [exec_mul, mulValue_comm, exec_mul]

theorem exec_mmul_comm (rd ra rb : RegId) (s : State) : exec (.mmul rd ra rb) s = exec (.mmul rd rb ra) s := by
  rw [exec_mmul, mmulValue_comm, exec_mmul]

theorem exec_sqr_eq_mul (rd ra : RegId) (s : State) : exec (.sqr rd ra) s = exec (.mul rd ra ra) s := by
  rw [exec_sqr, exec_mul]

theorem exec_msqr_eq_mmul (rd ra : RegId) (s : State) : exec (.msqr rd ra) s = exec (.mmul rd ra ra) s := by
  rw [exec_msqr, exec_mmul]

theorem exec_mmul_eq_tomont {rb : RegId} {s : State} (h : s.readReg rb = Const.RR) (rd ra : RegId) :
    exec (.mmul rd ra rb) s = exec (.tomont rd ra) s := by
  rw [exec_mmul, h, exec_tomont, tomontValue_eq_mmulValue]

theorem exec_mmul_eq_frommont {rb : RegId} {s : State} (h : s.readReg rb = 1) (rd ra : RegId) :
    exec (.mmul rd ra rb) s = exec (.frommont rd ra) s := by
  rw [exec_mmul, h, exec_frommont, frommontValue_eq_mmulValue]

/-! ### The commands -/

/-- Settles O27: the two reductions' factors RADIX⁻¹ cancel against RR. -/
theorem mulStoresProductModL : Obligations.MulStoresProductModL := by
  unfold Obligations.MulStoresProductModL
  intro rd ra rb s a b
  have hvalue : mulValue a b = a * b % Const.L := mulValue_eq_mod (readReg_lt s ra) (readReg_lt s rb)
  refine ⟨toNat_toWord_fieldsR3 0x03 rd ra rb, ?_, hvalue.symm, exec_mul_comm rd ra rb s⟩
  rw [exec_mul, complete_writeReg, hvalue]

/-- Settles O28: `sqr` is `mul` of a register with itself. -/
theorem sqrStoresSquareModL : Obligations.SqrStoresSquareModL := by
  unfold Obligations.SqrStoresSquareModL
  intro rd ra s a
  have hvalue : mulValue a a = a ^ 2 % Const.L := by
    rw [Nat.pow_two]
    exact mulValue_eq_mod (readReg_lt s ra) (readReg_lt s ra)
  refine ⟨toNat_toWord_fieldsR2 0x04 rd ra, ?_, exec_sqr_eq_mul rd ra s⟩
  rw [exec_sqr, complete_writeReg, hvalue]

/-- Settles O29: the reduction's properties, for a product of two register values. -/
theorem mmulStoresMontgomeryProduct : Obligations.MmulStoresMontgomeryProduct := by
  unfold Obligations.MmulStoresMontgomeryProduct
  intro rd ra rb s a b rinv
  have ha : a < 2 ^ 261 := readReg_lt s ra
  have hb : b < 2 ^ 261 := readReg_lt s rb
  refine ⟨toNat_toWord_fieldsR3 0x05 rd ra rb,
    ⟨mmulValue a b, exec_mmul rd ra rb s, mmulValue_lt ha hb, mmulValue_mod a b, mmulValue_mul_radix_mod a b,
      mmulValue_eq_mod, mmulValue_add_L, ?byR⟩,
    mul_lt_domain, ?domain, fun h => exec_mmul_eq_tomont h rd ra, fun h => exec_mmul_eq_frommont h rd ra,
    exec_mmul_comm rd ra rb s⟩
  case byR =>
    intro h
    rw [h, mmulValue_R ha]
  case domain =>
    rintro (haL | hbL)
    · rw [Nat.mul_comm]
      exact mul_lt_domain_of_le_L hb haL
    · exact mul_lt_domain_of_le_L ha hbL

/-- Settles O30: `msqr` is `mmul` of a register with itself. -/
theorem msqrStoresMontgomerySquare : Obligations.MsqrStoresMontgomerySquare := by
  unfold Obligations.MsqrStoresMontgomerySquare
  intro rd ra s a rinv
  rw [Nat.pow_two]
  exact ⟨toNat_toWord_fieldsR2 0x06 rd ra, exec_msqr rd ra s, exec_msqr_eq_mmul rd ra s, redc_eq_mod,
    fun h => mul_lt_domain h h⟩

/-- Settles O31: the product with RR is always in the reduction's domain, and multiplying by the radix fixes no residue but 0. -/
theorem tomontStoresMontgomeryForm : Obligations.TomontStoresMontgomeryForm := by
  unfold Obligations.TomontStoresMontgomeryForm
  intro rd ra s x r
  have hvalue : tomontValue x = r := tomontValue_eq_mod (readReg_lt s ra)
  refine ⟨toNat_toWord_fieldsR2 0x07 rd ra, ?_, (mul_R_mod x).symm, mt mod_L_eq_zero_of_mul_radix_mod,
    mul_radix_mod_eq_self_iff x⟩
  rw [exec_tomont, complete_writeReg, hvalue]

/-- Settles O32: every register value is in the reduction's domain. -/
theorem frommontStoresPlainForm : Obligations.FrommontStoresPlainForm := by
  unfold Obligations.FrommontStoresPlainForm
  intro rd ra s y r
  have hr : r = y * radixInverse % Const.L := rfl
  have hvalue : frommontValue y = r := frommontValue_eq_mod (readReg_lt s ra)
  refine ⟨toNat_toWord_fieldsR2 0x08 rd ra, ?stored, ?inverse, ?ofR, ?ofRR⟩
  case stored => rw [exec_frommont, complete_writeReg, hvalue]
  case inverse => rw [hr, Nat.mod_mul_mod, mul_radixInverse_mul_radix_mod]
  case ofR =>
    intro h
    rw [hr, h, R_mul_radixInverse_mod]
  case ofRR =>
    intro h
    rw [hr, h, RR_mul_radixInverse_mod]

/-- Settles O33: the residues of the value functions, compared. -/
theorem multiplyIdentities : Obligations.MultiplyIdentities := by
  unfold Obligations.MultiplyIdentities
  refine ⟨fun rd ra rb s => ?tied, fun a b ha hb => ?identities⟩
  case tied =>
    exact ⟨exec_mul rd ra rb s, exec_mmul rd ra rb s, exec_tomont rd ra s, exec_frommont rd ra s, exec_sqr rd ra s,
      exec_msqr rd ra s⟩
  case identities =>
    exact ⟨mulValue_comm a b, mmulValue_comm a b, mulValue_eq_mmulValue_tomontValue ha hb,
      frommontValue_mmulValue_tomontValue ha hb, frommontValue_tomontValue ha, tomontValue_frommontValue ha,
      tomontValue_eq_mmulValue a, frommontValue_eq_mmulValue a, tomontValue_ne_self ha, mulValue_lt ha hb,
      tomontValue_lt ha, frommontValue_lt ha, redc_lt_L⟩

end Machine

end Sys2Proof
end

section
/-! PROOFS. The wide reduction (spec/44_wide_reduction.md): the buffer as one little-endian integer, what `fbw` does with it, and the
reference decomposition, whose two halves are residues. -/

namespace Sys2Proof

/-- Format `DI`: a word is its opcode, its register and its immediate byte (spec/30_encoding.md R46). -/
theorem toNat_toWord_fieldsDI (opc : BitVec 8) (rd : RegId) (imm : BitVec 8) :
    (fieldsDI opc rd imm).toWord.toNat = opc.toNat * 2 ^ 24 + rd.val * 2 ^ 20 + imm.toNat := by
  have hzero : (0 : BitVec 4).toNat = 0 := rfl
  rw [Fields.toNat_toWord]
  simp only [fieldsDI, toNat_fieldOfReg]
  rw [hzero]
  omega

theorem toNat_encode_fbw (rd : RegId) (len : BitVec 8) :
    (encode (.fbw rd len)).toNat = 0x09000000 + rd.val * 2 ^ 20 + len.toNat :=
  toNat_toWord_fieldsDI 0x09 rd len

namespace Machine

set_option exponentiation.threshold 600

/-! ### A block of bytes as a sum (R8) -/

/-- A sum begins with its first term. -/
theorem sumBelow_succ_first (n : Nat) (f : Nat → Nat) : sumBelow (n + 1) f = f 0 + sumBelow n fun j => f (j + 1) := by
  induction n with
  | zero => rfl
  | succ n ih => rw [sumBelow_succ, ih, sumBelow_succ, Nat.add_assoc]

/-- `MemRead` is the little-endian sum of the block's bytes. -/
theorem memRead_eq_sumBelow (s : State) (addr n : Nat) :
    s.memRead addr n = sumBelow n fun j => (s.readByte (addr + j)).toNat * 2 ^ (8 * j) := by
  induction n generalizing addr with
  | zero => rfl
  | succ n ih =>
    have hterm : ∀ j, 2 ^ 8 * ((s.readByte (addr + 1 + j)).toNat * 2 ^ (8 * j)) =
        (s.readByte (addr + (j + 1))).toNat * 2 ^ (8 * (j + 1)) := fun j => by
      rw [Nat.mul_left_comm, ← Nat.pow_add, Nat.add_comm 8 (8 * j), ← Nat.mul_succ, Nat.add_assoc, Nat.add_comm 1 j]
    rw [State.memRead, ih, mul_sumBelow, sumBelow_succ_first, sumBelow_congr fun j _ => hterm j, Nat.add_zero, Nat.mul_zero,
      Nat.pow_zero, Nat.mul_one]

/-- The same sum for a block at address 0, as the commands' rules write it. -/
theorem memRead_zero_eq_sum (s : State) (n : Nat) :
    s.memRead 0 n = ((List.range n).map fun j => (s.readByte j).toNat * 2 ^ (8 * j)).sum := by
  rw [memRead_eq_sumBelow]
  exact sumBelow_congr fun j _ => by rw [Nat.zero_add]

/-! ### `fbw` (R95) -/

/-- Settles O34: the length alone selects the case, and the block of 64 bytes is the integer W. -/
theorem fbwStoresWideResidue : Obligations.FbwStoresWideResidue := by
  unfold Obligations.FbwStoresWideResidue
  intro rd s w
  have hw : s.memRead 0 64 = w := memRead_zero_eq_sum s 64
  refine ⟨toNat_encode_fbw rd, ?bound, ?wide, fun len hlen => ?other⟩
  case bound => exact hw ▸ memRead_lt s 0 64
  case wide => exact (exec_fbw_wide rd s).trans (by rw [complete_writeReg, hw, wideValue])
  case other => exact exec_fbw_other rd (mt (congrArg BitVec.toNat) hlen) s

/-! ### The reference decomposition (R96) -/

theorem wideLow_lt (w : Nat) : w % 2 ^ 261 < 2 ^ 261 := Nat.mod_lt w (Nat.two_pow_pos 261)

section
variable {w : Nat} (hw : w < 2 ^ 512)
include hw

theorem wideHigh_lt : w / 2 ^ 261 < 2 ^ 261 := by omega

theorem wideHalves_sum_lt :
    mmulValue (w / 2 ^ 261) Const.RR + mmulValue (w % 2 ^ 261) Const.R < 2 * Const.L := by
  have hhi : mmulValue (w / 2 ^ 261) Const.RR < Const.L := tomontValue_lt (wideHigh_lt hw)
  have hlo : mmulValue (w % 2 ^ 261) Const.R < Const.L := by
    rw [mmulValue_R (wideLow_lt w)]
    exact Nat.mod_lt _ L_pos
  omega

/-- The sum of two residues is too small for `add` to cut it. -/
theorem wideByParts_eq_addValue :
    wideByParts w = addValue (mmulValue (w / 2 ^ 261) Const.RR) (mmulValue (w % 2 ^ 261) Const.R) := by
  have hL := L_lt
  have hsum := wideHalves_sum_lt hw
  rw [addValue_eq_condSubL (by omega), Nat.add_comm]
  rfl

/-- The halves' residues add up to the residue of hi·2^261 + lo. -/
theorem wideByParts_eq_mod : wideByParts w = w % Const.L := by
  calc wideByParts w
      = (mmulValue (w / 2 ^ 261) Const.RR + mmulValue (w % 2 ^ 261) Const.R) % Const.L := by
        rw [wideByParts_eq_addValue hw, addValue_eq_mod_L (wideHalves_sum_lt hw)]
    _ = (w / 2 ^ 261 * 2 ^ 261 % Const.L + w % 2 ^ 261 % Const.L) % Const.L := by
        rw [← tomontValue_eq_mmulValue, tomontValue_eq_mod (wideHigh_lt hw), mmulValue_R (wideLow_lt w)]
    _ = w % Const.L := by rw [← Nat.add_mod, Nat.div_add_mod']

end

/-- Settles O35: the factors R and RR cancel each reduction's RADIX⁻¹ and leave the weights 1 and 2^261 of the halves. -/
theorem wideDecompositionIsResidue : Obligations.WideDecompositionIsResidue := by
  unfold Obligations.WideDecompositionIsResidue
  intro w hw lo hi
  exact ⟨mmulValue_R (wideLow_lt w), tomontValue_eq_mod (wideHigh_lt hw), wideByParts_eq_mod hw,
    wideByParts_eq_addValue hw⟩

end Machine

end Sys2Proof
end

section
/-! PROOFS. `tob` and `fb` (spec/45_serialization.md): the words, the bits that a byte and a limb hold, and the 32-byte block that each
command moves. -/

namespace Sys2Proof

/-! ### The words -/

/-- Format `A`: a word is its opcode and its source register (spec/30_encoding.md R46). -/
theorem toNat_toWord_fieldsA (opc : BitVec 8) (ra : RegId) :
    (fieldsA opc ra).toWord.toNat = opc.toNat * 2 ^ 24 + ra.val * 2 ^ 16 := by
  rw [Fields.toNat_toWord]
  simp [fieldsA]

/-- Format `D`: a word is its opcode and its destination register (spec/30_encoding.md R46). -/
theorem toNat_toWord_fieldsD (opc : BitVec 8) (rd : RegId) :
    (fieldsD opc rd).toWord.toNat = opc.toNat * 2 ^ 24 + rd.val * 2 ^ 20 := by
  rw [Fields.toNat_toWord]
  simp [fieldsD]

theorem toNat_encode_tob (ra : RegId) : (encode (.tob ra)).toNat = 0x0A000000 + ra.val * 2 ^ 16 :=
  toNat_toWord_fieldsA 0x0A ra

theorem toNat_encode_fb (rd : RegId) : (encode (.fb rd)).toNat = 0x0B000000 + rd.val * 2 ^ 20 :=
  toNat_toWord_fieldsD 0x0B rd

namespace Machine

set_option exponentiation.threshold 300

/-! ### Digits of a fixed width: bytes and limbs -/

/-- Bit k of an integer is bit k mod w of its w-bit digit k div w. -/
theorem testBit_digit {w : Nat} (hw : 0 < w) (v k : Nat) :
    (v / 2 ^ (w * (k / w)) % 2 ^ w).testBit (k % w) = v.testBit k := by
  rw [Nat.testBit_mod_two_pow, Nat.testBit_div_two_pow, Nat.mod_add_div, decide_eq_true (Nat.mod_lt k hw), Bool.true_and]

/-- Keeping the low n digits leaves each of them as it was. -/
theorem mod_two_pow_digit {w n j : Nat} (hj : j < n) (v : Nat) :
    v % 2 ^ (w * n) / 2 ^ (w * j) % 2 ^ w = v / 2 ^ (w * j) % 2 ^ w := by
  obtain ⟨d, rfl⟩ := Nat.exists_eq_add_of_lt hj
  rw [Nat.add_assoc, Nat.mul_add, Nat.pow_add, Nat.mod_mul_right_div_self, Nat.mul_succ, Nat.pow_add, Nat.mod_mul_left_mod]

theorem testBit_limb (v k : Nat) : (limb v (k / 29)).testBit (k % 29) = v.testBit k := testBit_digit (by decide) v k

/-! ### `tob` (R100) -/

/-- The state `tob ra` ends in. -/
def tobState (ra : RegId) (s : State) : State := (s.memWrite 0 32 (s.readReg ra % 2 ^ 256)).setCC .ok

theorem exec_tob_eq_next (ra : RegId) (s : State) : exec (.tob ra) s = .next (tobState ra s) := exec_tob ra s

/-- A completion code set where only the buffer can differ. -/
theorem setCC_fields_of_buf {s t : State} (h : t = { s with buf := t.buf }) (c : CompletionCode) :
    t.setCC c = { s with buf := (t.setCC c).buf, cc := c } := congrArg (State.setCC · c) h

theorem tobState_fields (ra : RegId) (s : State) : tobState ra s = { s with buf := (tobState ra s).buf, cc := .ok } :=
  setCC_fields_of_buf (memWrite_fields s 0 32 _) .ok

theorem toNat_readByte_tobState (ra : RegId) (s : State) {j : Nat} (hj : j < 32) :
    ((tobState ra s).readByte j).toNat = s.readReg ra / 2 ^ (8 * j) % 2 ^ 8 := by
  have hbyte := readByte_memWrite_inside s 0 32 (s.readReg ra % 2 ^ 256) j hj
  rw [Nat.zero_add] at hbyte
  rw [tobState, readByte_setCC, hbyte, BitVec.toNat_ofNat]
  exact mod_two_pow_digit (w := 8) hj (s.readReg ra)

/-- The buffer's first 256 bits are the register's, bit for bit. -/
theorem testBit_readByte_tobState (ra : RegId) (s : State) {k : Nat} (hk : k < 256) :
    ((tobState ra s).readByte (k / 8)).toNat.testBit (k % 8) = (s.readReg ra).testBit k := by
  rw [toNat_readByte_tobState ra s (by omega), testBit_digit (by decide)]

theorem readByte_tobState_of_le (ra : RegId) (s : State) {a : Nat} (ha : 32 ≤ a) :
    (tobState ra s).readByte a = s.readByte a := by
  rw [tobState, readByte_setCC, readByte_memWrite_outside _ _ _ _ (.inr ha)]

/-- Settles O36: bytes and limbs are digits of the one register value, so bit k of the encoding is its bit k in both. -/
theorem tobStoresLow256Bits : Obligations.TobStoresLow256Bits := by
  unfold Obligations.TobStoresLow256Bits
  intro ra s v
  refine ⟨toNat_encode_tob ra, tobState ra s, exec_tob_eq_next ra s, tobState_fields ra s,
    fun j hj => toNat_readByte_tobState ra s hj, fun k hk => ?bits, fun a ha => readByte_tobState_of_le ra s ha⟩
  case bits => rw [testBit_readByte_tobState ra s hk, testBit_limb]

/-! ### `fb` (R101) -/

/-- Limb 8 begins at bit 232, so 24 bits of a 256-bit integer are left for it. -/
theorem limb_eight_lt {v : Nat} (hv : v < 2 ^ 256) : limb v 8 < 2 ^ 24 :=
  Nat.lt_of_le_of_lt (Nat.mod_le _ _) (Nat.div_lt_of_lt_mul (by omega))

/-- Settles O37: the block of 32 bytes is the integer V, below 2^256, and the register has room for all of it. -/
theorem fbLoadsUnreducedInteger : Obligations.FbLoadsUnreducedInteger := by
  unfold Obligations.FbLoadsUnreducedInteger
  intro rd s v
  have hv : s.memRead 0 32 = v := memRead_zero_eq_sum s 32
  have hlt : v < 2 ^ 256 := hv ▸ memRead_lt s 0 32
  have hexec : exec (.fb rd) s = complete (s.writeReg rd v) := hv ▸ exec_fb rd s
  have hreg : ((s.writeReg rd v).setCC .ok).readReg rd = v :=
    readReg_of_complete_writeReg (Nat.lt_trans hlt (by decide)) rfl
  refine ⟨toNat_encode_fb rd, hlt, (s.writeReg rd v).setCC .ok, hexec, rfl, hreg, fun k _ => ?limb, ?limbEight⟩
  case limb => rw [hreg, limb]
  case limbEight => exact hreg.symm ▸ limb_eight_lt hlt

end Machine

end Sys2Proof
end

section
/-! PROOFS. The completion codes (spec/60_exceptions.md): which of three ways an issued word ends, and what a failed command
leaves. -/

namespace Sys2Proof

/-! ### The one check in execution (R107) -/

/-- An `fbw` whose length is not that of the buffer: the only command that can fail. -/
def Instr.lengthMismatched (i : Instr) : Prop := ∃ rd len, i = .fbw rd len ∧ len.toNat ≠ 64

theorem Instr.lengthMismatched_iff_of_decode {w : Word} {i : Instr} (hd : decode w = .command i) :
    (∃ rd len, decode w = .command (.fbw rd len) ∧ len.toNat ≠ 64) ↔ i.lengthMismatched := by
  simp only [hd, Decoded.command.injEq, Instr.lengthMismatched]

theorem wellFormed_of_decode {w : Word} {i : Instr} (hd : decode w = .command i) : i.wellFormed = true := by
  obtain ⟨j, hj, -, hwf, -⟩ | ⟨⟨why, hwhy⟩, -⟩ := decode_cases w
  · rw [hd, Decoded.command.injEq] at hj
    exact hj ▸ hwf
  · cases hd.symm.trans hwhy

namespace Machine

theorem exec_of_lengthMismatched {i : Instr} (h : i.lengthMismatched) (s : State) :
    exec i s = .next (s.setCC .lengthMismatch) := by
  obtain ⟨rd, len, rfl, hlen⟩ := h
  exact exec_fbw_other rd (mt (congrArg BitVec.toNat) hlen) s

/-- A command the decoder can return, its length being right, ends with OK. -/
theorem exec_ok_of_not_lengthMismatched {i : Instr} (hwf : i.wellFormed = true) (h : ¬i.lengthMismatched) (s : State) :
    ∃ t, exec i s = .next t ∧ t.cc = .ok := by
  obtain ⟨rd, v, -, he⟩ | ⟨ra, -, he⟩ | ⟨ra, rb, -, he⟩ | ⟨rd, len, hi, hlen, -⟩ | ⟨rd, k, rfl, hk, -⟩ := exec_cases i s
  · exact ⟨_, he, rfl⟩
  · exact ⟨_, he, rfl⟩
  · exact ⟨_, he, rfl⟩
  · exact absurd ⟨rd, len, hi, fun h64 => hlen (BitVec.eq_of_toNat_eq h64)⟩ h
  · obtain ⟨v, hv⟩ := constOperand_legal k (of_decide_eq_true hwf)
    cases hk.symm.trans hv

/-! ### The three ways an issued word ends (R106, R112) -/

/-- What a failed command leaves: the code, and that the port's entry was taken and the code given back (R108). -/
def failedState (s : State) (rest : List Input) (code : CompletionCode) : State :=
  { s with port := rest, cc := code, reply := some (.issued code) }

/-- Decoding comes first, then the length: an issued word is rejected, or fails its length check, or ends with OK. -/
theorem step_of_issued_cases {s : State} {w : Word} {rest : List Input} (h : s.issuesNext w rest) :
    (∃ why, decode w = .illegal why ∧ step s = .next (failedState s rest .illegalCommand)) ∨
    (∃ i, decode w = .command i ∧ i.lengthMismatched ∧ step s = .next (failedState s rest .lengthMismatch)) ∨
    (∃ i t, decode w = .command i ∧ ¬i.lengthMismatched ∧ step s = .next t ∧
      t.port = rest ∧ t.cc = .ok ∧ t.reply = some (.issued t.cc)) := by
  cases hd : decode w with
  | illegal why => exact .inl ⟨why, rfl, step_of_issued_illegal hd h⟩
  | command i =>
    by_cases hlen : i.lengthMismatched
    · exact .inr (.inl ⟨i, rfl, hlen, step_of_command h hd (exec_of_lengthMismatched hlen _)⟩)
    · obtain ⟨t, ht, hok⟩ := exec_ok_of_not_lengthMismatched (wellFormed_of_decode hd) hlen (s.withPort rest)
      obtain ⟨u, hu, hport⟩ := exec_completes_port i (s.withPort rest)
      obtain rfl : t = u := by injection ht.symm.trans hu
      exact .inr (.inr ⟨i, _, rfl, hlen, step_of_command h hd ht, hport, hok, rfl⟩)

/-- Settles O8: in each of the three ways an issued word ends, the code and what the decoder answers exclude the other two. -/
theorem completionCodeIsAFunctionOfTheWord : Obligations.CompletionCodeIsAFunctionOfTheWord := by
  unfold Obligations.CompletionCodeIsAFunctionOfTheWord
  refine ⟨fun w s rest h => ?_, by decide, by decide⟩
  obtain ⟨why, hd, hs⟩ | ⟨i, hd, hlen, hs⟩ | ⟨i, t, hd, hlen, hs, hport, hok, hreply⟩ := step_of_issued_cases h
  · exact ⟨_, hs, rfl, rfl, by simp [failedState, hd], by simp [failedState, hd]⟩
  · refine ⟨_, hs, rfl, rfl, by simp [failedState, hd], ?_⟩
    rw [Instr.lengthMismatched_iff_of_decode hd]
    exact iff_of_true rfl hlen
  · refine ⟨t, hs, hport, hreply, by simp [hok, hd], ?_⟩
    rw [Instr.lengthMismatched_iff_of_decode hd]
    exact iff_of_false (by simp [hok]) hlen

/-- Settles O9: both ways of failing leave the failed state, and the third way ends with OK. -/
theorem failedCommandChangesOnlyTheCode : Obligations.FailedCommandChangesOnlyTheCode := by
  unfold Obligations.FailedCommandChangesOnlyTheCode
  intro w s t rest h ht hcc
  obtain ⟨why, -, hs⟩ | ⟨i, -, -, hs⟩ | ⟨i, u, -, -, hs, -, hok, -⟩ := step_of_issued_cases h
  · cases ht.symm.trans hs
    rfl
  · cases ht.symm.trans hs
    rfl
  · cases ht.symm.trans hs
    exact absurd hok hcc

end Machine

end Sys2Proof
end

section
/-! PROOFS. The round trip between commands and words (spec/30_encoding.md R49): each format's decoder undoes the format's fields, and
a legal word is the word of the command it decodes to. -/

namespace Sys2Proof

/-! ### Each format's decoder on the format's own fields (R46) -/

section
variable (opc : BitVec 8) (rd ra rb : RegId) (imm : BitVec 8)

@[simp] theorem decodeR3_fieldsR3 (mk : RegId → RegId → RegId → Instr) :
    decodeR3 mk (fieldsR3 opc rd ra rb) = .command (mk rd ra rb) := by simp [decodeR3, fieldsR3]

@[simp] theorem decodeR2_fieldsR2 (mk : RegId → RegId → Instr) :
    decodeR2 mk (fieldsR2 opc rd ra) = .command (mk rd ra) := by simp [decodeR2, fieldsR2]

@[simp] theorem decodeDI_fieldsDI (mk : RegId → BitVec 8 → Instr) :
    decodeDI mk (fieldsDI opc rd imm) = .command (mk rd imm) := by simp [decodeDI, fieldsDI]

@[simp] theorem decodeD_fieldsD (mk : RegId → Instr) :
    decodeD mk (fieldsD opc rd) = .command (mk rd) := by simp [decodeD, fieldsD]

@[simp] theorem decodeA_fieldsA (mk : RegId → Instr) :
    decodeA mk (fieldsA opc ra) = .command (mk ra) := by simp [decodeA, fieldsA]

@[simp] theorem decodeC_fieldsC (mk : RegId → RegId → Instr) :
    decodeC mk (fieldsC opc ra rb) = .command (mk ra rb) := by simp [decodeC, fieldsC]

end

/-! ### Commands and their fields -/

/-- No command sets the reserved field. -/
theorem z_encodeFields (i : Instr) : (encodeFields i).z = 0 := by cases i <;> rfl

/-- The case on the opcode selects the format that laid the fields out. -/
theorem decodeFields_encodeFields {i : Instr} (hwf : i.wellFormed = true) : decodeFields (encodeFields i) = .command i := by
  cases i with
  | add rd ra rb => exact decodeR3_fieldsR3 0x01 rd ra rb .add
  | sub rd ra rb => exact decodeR3_fieldsR3 0x02 rd ra rb .sub
  | mul rd ra rb => exact decodeR3_fieldsR3 0x03 rd ra rb .mul
  | sqr rd ra => exact decodeR2_fieldsR2 0x04 rd ra .sqr
  | mmul rd ra rb => exact decodeR3_fieldsR3 0x05 rd ra rb .mmul
  | msqr rd ra => exact decodeR2_fieldsR2 0x06 rd ra .msqr
  | tomont rd ra => exact decodeR2_fieldsR2 0x07 rd ra .tomont
  | frommont rd ra => exact decodeR2_fieldsR2 0x08 rd ra .frommont
  | fbw rd len => exact decodeDI_fieldsDI 0x09 rd len .fbw
  | tob ra => exact decodeA_fieldsA 0x0A ra .tob
  | fb rd => exact decodeD_fieldsD 0x0B rd .fb
  | ldc rd k => exact (if_pos (of_decide_eq_true hwf)).trans (decodeDI_fieldsDI 0x0C rd k .ldc)
  | eq ra rb => exact decodeC_fieldsC 0x0D ra rb .eq

theorem decode_encode {i : Instr} (hwf : i.wellFormed = true) : decode (encode i) = .command i := by
  rw [encode, decode_toWord (z_encodeFields i), decodeFields_encodeFields hwf]

theorem encode_of_decode {w : Word} {i : Instr} (hd : decode w = .command i) : encode i = w := by
  obtain ⟨j, hj, henc, -, -⟩ | ⟨⟨why, hwhy⟩, -⟩ := decode_cases w
  · rw [hd, Decoded.command.injEq] at hj
    exact hj ▸ henc
  · cases hd.symm.trans hwhy

/-- Settles O2: a command's opcode selects the decoder of the format it was encoded in, which reads its operands back. -/
theorem encodeThenDecodeGivesCommand : Obligations.EncodeThenDecodeGivesCommand := by
  unfold Obligations.EncodeThenDecodeGivesCommand
  exact fun i hwf => decode_encode hwf

/-- Settles O3: of the decoder's two answers to a word, the one that is a command names the word's own command. -/
theorem decodeThenEncodeGivesWord : Obligations.DecodeThenEncodeGivesWord := by
  unfold Obligations.DecodeThenEncodeGivesWord
  exact fun w i hd => ⟨encode_of_decode hd, wellFormed_of_decode hd⟩

/-- Settles O1: the words of spec/95_test_vectors.md 2.12, evaluated. -/
theorem decodesWrittenWords : Obligations.DecodesWrittenWords := by
  unfold Obligations.DecodesWrittenWords
  decide

end Sys2Proof
end

section
/-! PROOFS. What one command and one step can change (spec/10_state.md section 1): the frame of every command, the writers of each part
of the state, and what every step keeps. -/

namespace Sys2Proof.Machine

set_option exponentiation.threshold 300

/-! ### The frame of a command -/

/-- The state a command leaves: one register, 32 bytes or the flag written, and the code; or the code alone. -/
theorem exec_next_cases {i : Instr} {s t : State} (h : exec i s = .next t) :
    (∃ rd v, i.dest? = some rd ∧ t = (s.writeReg rd v).setCC .ok) ∨
    (∃ ra, i = .tob ra ∧ t = tobState ra s) ∨
    (∃ ra rb, i = .eq ra rb ∧ t = (s.setEq (equalFlag (s.readReg ra) (s.readReg rb))).setCC .ok) ∨
    (∃ code, t = s.setCC code) := by
  obtain ⟨rd, v, hd, he⟩ | ⟨ra, hi, he⟩ | ⟨ra, rb, hi, he⟩ | ⟨rd, len, -, -, he⟩ | ⟨rd, k, -, -, he⟩ := exec_cases i s
  · exact .inl ⟨rd, v, hd, complete_next (he.symm.trans h)⟩
  · exact .inr (.inl ⟨ra, hi, complete_next (he.symm.trans h)⟩)
  · exact .inr (.inr (.inl ⟨ra, rb, hi, complete_next (he.symm.trans h)⟩))
  · exact .inr (.inr (.inr ⟨_, raise_next (he.symm.trans h)⟩))
  · exact .inr (.inr (.inr ⟨_, raise_next (he.symm.trans h)⟩))

@[simp] theorem readReg_tobState (ra : RegId) (s : State) (r : RegId) : (tobState ra s).readReg r = s.readReg r := by
  rw [tobState, readReg_setCC, readReg_memWrite]

@[simp] theorem tobState_eqFlag (ra : RegId) (s : State) : (tobState ra s).eqFlag = s.eqFlag := by rw [tobState_fields]
@[simp] theorem tobState_draw (ra : RegId) (s : State) : (tobState ra s).draw = s.draw := by rw [tobState_fields]
@[simp] theorem tobState_port (ra : RegId) (s : State) : (tobState ra s).port = s.port := by rw [tobState_fields]
@[simp] theorem tobState_reply (ra : RegId) (s : State) : (tobState ra s).reply = s.reply := by rw [tobState_fields]

theorem tobState_buf_wf (ra : RegId) {s : State} (hs : Memory.wf s.buf) : Memory.wf (tobState ra s).buf := by
  rw [tobState, State.setCC_buf]
  exact memWrite_wf s 0 32 _ (by decide) hs

section
variable {i : Instr} {s t : State} (h : exec i s = .next t)
include h

/-- A command leaves every register but its destination. -/
theorem readReg_exec_of_dest_ne {r : RegId} (hr : i.dest? ≠ some r) : t.readReg r = s.readReg r := by
  obtain ⟨rd, v, hd, rfl⟩ | ⟨ra, -, rfl⟩ | ⟨ra, rb, -, rfl⟩ | ⟨code, rfl⟩ := exec_next_cases h
  · exact readReg_writeReg_ne s (fun hrd => hr (hd.trans (congrArg some hrd.symm))) v
  · exact readReg_tobState ra s r
  · rfl
  · rfl

/-- Only `tob` writes bytes, and only the first 32. -/
theorem readByte_exec_of_not_tob {a : Nat} (ha : (∀ ra, i ≠ .tob ra) ∨ 32 ≤ a) : t.readByte a = s.readByte a := by
  obtain ⟨rd, v, -, rfl⟩ | ⟨ra, hi, rfl⟩ | ⟨ra, rb, -, rfl⟩ | ⟨code, rfl⟩ := exec_next_cases h
  · rfl
  · exact readByte_tobState_of_le ra s (ha.resolve_left fun hne => hne ra hi)
  · rfl
  · rfl

/-- Only `eq` writes the flag. -/
theorem eqFlag_exec_of_not_eq (hne : ∀ ra rb, i ≠ .eq ra rb) : t.eqFlag = s.eqFlag := by
  obtain ⟨rd, v, -, rfl⟩ | ⟨ra, -, rfl⟩ | ⟨ra, rb, hi, rfl⟩ | ⟨code, rfl⟩ := exec_next_cases h
  · rfl
  · exact tobState_eqFlag ra s
  · exact absurd hi (hne ra rb)
  · rfl

/-- No command touches the model's own fields. -/
theorem ownFields_exec : t.draw = s.draw ∧ t.port = s.port ∧ t.reply = s.reply := by
  obtain ⟨rd, v, -, rfl⟩ | ⟨ra, -, rfl⟩ | ⟨ra, rb, -, rfl⟩ | ⟨code, rfl⟩ := exec_next_cases h
  · exact ⟨rfl, rfl, rfl⟩
  · exact ⟨tobState_draw ra s, tobState_port ra s, tobState_reply ra s⟩
  · exact ⟨rfl, rfl, rfl⟩
  · exact ⟨rfl, rfl, rfl⟩

theorem buf_wf_exec (hs : Memory.wf s.buf) : Memory.wf t.buf := by
  obtain ⟨rd, v, -, rfl⟩ | ⟨ra, -, rfl⟩ | ⟨ra, rb, -, rfl⟩ | ⟨code, rfl⟩ := exec_next_cases h
  · exact hs
  · exact tobState_buf_wf ra hs
  · exact hs
  · exact hs

end

/-- A command with a destination that passes its checks writes it and ends with OK. -/
theorem exec_writes_dest {i : Instr} {rd : RegId} (hd : i.dest? = some rd) (hwf : i.wellFormed = true)
    (hlen : ¬i.lengthMismatched) (s : State) : ∃ v, exec i s = complete (s.writeReg rd v) := by
  obtain ⟨rd', v, hd', he⟩ | ⟨ra, rfl, -⟩ | ⟨ra, rb, rfl, -⟩ | ⟨rd', len, hi, hne, -⟩ | ⟨rd', k, rfl, hk, -⟩ := exec_cases i s
  · obtain rfl : rd' = rd := Option.some.inj (hd'.symm.trans hd)
    exact ⟨v, he⟩
  · cases hd
  · cases hd
  · exact absurd ⟨rd', len, hi, fun h64 => hne (BitVec.eq_of_toNat_eq h64)⟩ hlen
  · obtain ⟨v, hv⟩ := constOperand_legal k (of_decide_eq_true hwf)
    cases hk.symm.trans hv

/-- Settles O19: all eleven have `rd` as their destination and pass their checks, so they write it, and the frame is that of a
register write. -/
theorem registerCommandsFrame : Obligations.RegisterCommandsFrame := by
  unfold Obligations.RegisterCommandsFrame
  intro s rd ra rb k hk i hi
  have hchecks : i.dest? = some rd ∧ i.wellFormed = true ∧ ¬i.lengthMismatched := by
    revert i
    simp [Instr.dest?, Instr.wellFormed, Instr.lengthMismatched, hk]
  obtain ⟨hd, hwf, hlen⟩ := hchecks
  obtain ⟨v, he⟩ := exec_writes_dest hd hwf hlen s
  exact ⟨_, he, rfl, fun r hr => readReg_writeReg_ne s hr v, fun _ => rfl, rfl, rfl, rfl, rfl⟩

/-! ### What a command reads (spec/10_state.md section 1, column "read by") -/

theorem agree_of_pair {s₁ s₂ : State} {ra rb : RegId} (h : ∀ r ∈ [ra, rb], s₁.readReg r = s₂.readReg r) :
    s₁.readReg ra = s₂.readReg ra ∧ s₁.readReg rb = s₂.readReg rb := ⟨h ra (by simp), h rb (by simp)⟩

theorem exec_ldc_none {k : BitVec 8} (h : constOperand k = none) (rd : RegId) (s : State) :
    exec (.ldc rd k) s = raise .illegalCommand s := by
  simp [exec, execLdc, h]

/-- Two states that agree on what a command reads: it writes the same value in both, or fails in both with one code. -/
theorem exec_congr {i : Instr} {s₁ s₂ : State} (hr : ∀ r ∈ i.sources, s₁.readReg r = s₂.readReg r)
    (hb : ∀ a, a < i.bytesRead → s₁.readByte a = s₂.readByte a) :
    (∃ rd v, i.dest? = some rd ∧ exec i s₁ = complete (s₁.writeReg rd v) ∧ exec i s₂ = complete (s₂.writeReg rd v)) ∨
    (∃ ra, i = .tob ra ∧ s₁.readReg ra = s₂.readReg ra) ∨
    (∃ ra rb, i = .eq ra rb ∧ s₁.readReg ra = s₂.readReg ra ∧ s₁.readReg rb = s₂.readReg rb) ∨
    (∃ rd code, i.dest? = some rd ∧ code ≠ .ok ∧ exec i s₁ = raise code s₁ ∧ exec i s₂ = raise code s₂) := by
  have hblock (n : Nat) (hn : i.bytesRead = n) : s₁.memRead 0 n = s₂.memRead 0 n :=
    memRead_congr fun j _ hj => hb j (by omega)
  cases i with
  | add rd ra rb =>
    obtain ⟨ha, hb⟩ := agree_of_pair hr
    exact .inl ⟨rd, _, rfl, exec_add .., by rw [ha, hb, exec_add]⟩
  | sub rd ra rb =>
    obtain ⟨ha, hb⟩ := agree_of_pair hr
    exact .inl ⟨rd, _, rfl, exec_sub .., by rw [ha, hb, exec_sub]⟩
  | mul rd ra rb =>
    obtain ⟨ha, hb⟩ := agree_of_pair hr
    exact .inl ⟨rd, _, rfl, exec_mul .., by rw [ha, hb, exec_mul]⟩
  | sqr rd ra => exact .inl ⟨rd, _, rfl, exec_sqr .., by rw [hr ra (List.mem_singleton_self ra), exec_sqr]⟩
  | mmul rd ra rb =>
    obtain ⟨ha, hb⟩ := agree_of_pair hr
    exact .inl ⟨rd, _, rfl, exec_mmul .., by rw [ha, hb, exec_mmul]⟩
  | msqr rd ra => exact .inl ⟨rd, _, rfl, exec_msqr .., by rw [hr ra (List.mem_singleton_self ra), exec_msqr]⟩
  | tomont rd ra => exact .inl ⟨rd, _, rfl, exec_tomont .., by rw [hr ra (List.mem_singleton_self ra), exec_tomont]⟩
  | frommont rd ra => exact .inl ⟨rd, _, rfl, exec_frommont .., by rw [hr ra (List.mem_singleton_self ra), exec_frommont]⟩
  | fbw rd len =>
    by_cases hlen : len = 64#8
    · subst hlen
      exact .inl ⟨rd, _, rfl, exec_fbw_wide .., by rw [hblock 64 rfl, exec_fbw_wide]⟩
    · exact .inr (.inr (.inr ⟨rd, _, rfl, by decide, exec_fbw_other rd hlen s₁, exec_fbw_other rd hlen s₂⟩))
  | tob ra => exact .inr (.inl ⟨ra, rfl, hr ra (List.mem_singleton_self ra)⟩)
  | fb rd => exact .inl ⟨rd, _, rfl, exec_fb .., by rw [hblock 32 rfl, exec_fb]⟩
  | ldc rd k =>
    cases hk : constOperand k with
    | some v => exact .inl ⟨rd, v, rfl, exec_ldc_legal hk rd s₁, exec_ldc_legal hk rd s₂⟩
    | none => exact .inr (.inr (.inr ⟨rd, _, rfl, by decide, exec_ldc_none hk rd s₁, exec_ldc_none hk rd s₂⟩))
  | eq ra rb => exact .inr (.inr (.inl ⟨ra, rb, rfl, agree_of_pair hr⟩))

/-- The bytes `tob` writes are digits of its source alone. -/
theorem readByte_tobState_congr {ra : RegId} {s₁ s₂ : State} (h : s₁.readReg ra = s₂.readReg ra) {a : Nat} (ha : a < 32) :
    (tobState ra s₁).readByte a = (tobState ra s₂).readByte a := by
  apply BitVec.eq_of_toNat_eq
  rw [toNat_readByte_tobState ra s₁ ha, toNat_readByte_tobState ra s₂ ha, h]

/-- Settles O18: the two runs write one value, or move one register's bytes, or compare equal pairs, or fail with one code. -/
theorem commandsReadOnlyTheirSources : Obligations.CommandsReadOnlyTheirSources := by
  unfold Obligations.CommandsReadOnlyTheirSources
  intro i s₁ s₂ t₁ t₂ hr hb h₁ h₂
  obtain ⟨rd, v, hd, e₁, e₂⟩ | ⟨ra, rfl, hra⟩ | ⟨ra, rb, rfl, hra, hrb⟩ | ⟨rd, code, hd, hcode, e₁, e₂⟩ := exec_congr hr hb
  · obtain rfl := complete_next (e₁.symm.trans h₁)
    obtain rfl := complete_next (e₂.symm.trans h₂)
    refine ⟨rfl, fun _ rd' hd' => ?_, fun ra rb hi => ?_, fun ra hi => ?_⟩
    · obtain rfl : rd = rd' := Option.some.inj (hd.symm.trans hd')
      rw [readReg_setCC, readReg_setCC, readReg_writeReg_same, readReg_writeReg_same]
    · exact absurd (hi ▸ hd) nofun
    · exact absurd (hi ▸ hd) nofun
  · obtain rfl : tobState ra s₁ = t₁ := Host.Outcome.next.inj ((exec_tob_eq_next ra s₁).symm.trans h₁)
    obtain rfl : tobState ra s₂ = t₂ := Host.Outcome.next.inj ((exec_tob_eq_next ra s₂).symm.trans h₂)
    exact ⟨rfl, nofun, nofun, fun _ _ a ha => readByte_tobState_congr hra ha⟩
  · obtain rfl := complete_next ((exec_eq ra rb s₁).symm.trans h₁)
    obtain rfl := complete_next ((exec_eq ra rb s₂).symm.trans h₂)
    exact ⟨rfl, nofun, fun _ _ _ => by simp only [State.setCC_eqFlag, State.setEq_eqFlag, hra, hrb], nofun⟩
  · obtain rfl := raise_next (e₁.symm.trans h₁)
    obtain rfl := raise_next (e₂.symm.trans h₂)
    exact ⟨rfl, fun hok => absurd hok hcode, fun _ _ hi => absurd (hi ▸ hd) nofun, fun _ hi => absurd (hi ▸ hd) nofun⟩

/-! ### The window's accesses, read back from the host operation (spec/20_memory.md R32) -/

theorem bufIndex_eq_some {offset : Nat} {j : Fin 64} (h : bufIndex offset = some j) : offset = 0x40 + j.val := by
  unfold bufIndex bufOffset at h
  split at h
  next hrange =>
    obtain rfl := Option.some.inj h
    show offset = 0x40 + (offset - 0x40)
    omega
  next => cases h

/-- Only a 32-bit write of `CMD` issues a word. -/
theorem access_of_issue {a : WindowAccess} {w : Word} (h : a.hostOp? = some (.issue w)) :
    ∃ v, a = .write 0x00 32 v ∧ w = BitVec.ofNat 32 v := by
  cases a with
  | read offset width =>
    by_cases h32 : width = 32 <;> simp [WindowAccess.hostOp?, h32] at h
  | write offset width v =>
    by_cases h32 : width = 32
    · obtain ⟨hoffset, hw⟩ : offset = cmdOffset ∧ BitVec.ofNat 32 v = w := by simpa [WindowAccess.hostOp?, h32] using h
      exact ⟨v, by rw [hoffset, h32, cmdOffset], hw.symm⟩
    · simp [WindowAccess.hostOp?, h32] at h

/-- Only an 8-bit write of a byte of `BUF` writes that byte. -/
theorem access_of_wbuf {a : WindowAccess} {j : Fin 64} {b : Byte} (h : a.hostOp? = some (.wbuf j b)) :
    ∃ v, a = .write (0x40 + j.val) 8 v := by
  cases a with
  | read offset width =>
    by_cases h32 : width = 32 <;> simp [WindowAccess.hostOp?, h32] at h
  | write offset width v =>
    by_cases h32 : width = 32
    · simp [WindowAccess.hostOp?, h32] at h
    · by_cases h8 : width = 8
      · rw [WindowAccess.hostOp?, if_neg h32, if_pos h8] at h
        obtain ⟨j', hj', hop⟩ := Option.map_eq_some_iff.mp h
        cases hop
        exact ⟨v, by rw [bufIndex_eq_some hj', h8]⟩
      · simp [WindowAccess.hostOp?, h32, h8] at h

/-! ### Who writes what in a step -/

theorem afterCommand_next {o : Host.Outcome State Fault Refusal} {t : State} (h : afterCommand o = .next t) :
    ∃ u, o = .next u ∧ t = u.withReply (.issued u.cc) := by
  cases o with
  | next u => exact ⟨u, rfl, (Host.Outcome.next.inj h).symm⟩
  | fault f => cases h
  | refused r => cases h

/-- A step that is no reset event: it leaves all but the port and the reply, or is a host write of a byte, or issues a word that is
rejected, or issues a command. -/
theorem step_writer_cases {s t : State} (h : step s = .next t) (hreset : ∀ rest, s.port ≠ .reset :: rest) :
    (t = { s with port := t.port, reply := t.reply }) ∨
    (∃ j b v rest, s.port = .access (.write (0x40 + j.val) 8 v) :: rest ∧ t = hostWriteByte j b (s.withPort rest)) ∨
    (∃ v rest, s.port = .access (.write 0x00 32 v) :: rest ∧
      (t = ((s.withPort rest).setCC .illegalCommand).withReply (.issued .illegalCommand) ∨
       ∃ i u, decode (BitVec.ofNat 32 v) = .command i ∧ exec i (s.withPort rest) = .next u ∧
         t = u.withReply (.issued u.cc))) := by
  obtain ⟨-, rfl⟩ | ⟨rest, hp, -⟩ | ⟨a, rest, hp, hop⟩ := step_cases h
  · exact .inl rfl
  · exact absurd hp (hreset rest)
  obtain ⟨-, rfl⟩ | ⟨j, -, rfl⟩ | ⟨j, b, ha, rfl⟩ | ⟨w, why, ha, -, rfl⟩ | ⟨w, i, ha, hd, he⟩ := hop
  · exact .inl rfl
  · exact .inl rfl
  · obtain ⟨v, rfl⟩ := access_of_wbuf ha
    exact .inr (.inl ⟨j, b, v, rest, hp, rfl⟩)
  · obtain ⟨v, rfl, -⟩ := access_of_issue ha
    exact .inr (.inr ⟨v, rest, hp, .inl rfl⟩)
  · obtain ⟨v, rfl, rfl⟩ := access_of_issue ha
    obtain ⟨u, hu, rfl⟩ := afterCommand_next he
    exact .inr (.inr ⟨v, rest, hp, .inr ⟨i, u, hd, hu, rfl⟩⟩)

section
variable {s t : State} (h : step s = .next t) (hreset : ∀ rest, s.port ≠ .reset :: rest)
include h hreset

theorem writer_of_readReg_ne {r : RegId} (hne : t.readReg r ≠ s.readReg r) :
    ∃ v rest i, s.port = .access (.write 0x00 32 v) :: rest ∧ decode (BitVec.ofNat 32 v) = .command i ∧
      i.dest? = some r := by
  obtain heq | ⟨j, b, v, rest, -, rfl⟩ | ⟨v, rest, hp, rfl | ⟨i, u, hd, hu, rfl⟩⟩ := step_writer_cases h hreset
  · exact absurd (congrArg (State.readReg · r) heq) hne
  · exact absurd rfl hne
  · exact absurd rfl hne
  · by_cases hdest : i.dest? = some r
    · exact ⟨v, rest, i, hp, hd, hdest⟩
    · exact absurd (readReg_exec_of_dest_ne hu hdest) hne

theorem writer_of_readByte_ne {a : Nat} (hne : t.readByte a ≠ s.readByte a) :
    (∃ v rest, a < 64 ∧ s.port = .access (.write (0x40 + a) 8 v) :: rest) ∨
    (∃ v rest ra, a < 32 ∧ s.port = .access (.write 0x00 32 v) :: rest ∧
      decode (BitVec.ofNat 32 v) = .command (.tob ra)) := by
  obtain heq | ⟨j, b, v, rest, hp, rfl⟩ | ⟨v, rest, hp, rfl | ⟨i, u, hd, hu, rfl⟩⟩ := step_writer_cases h hreset
  · exact absurd (congrArg (State.readByte · a) heq) hne
  · by_cases ha : a = j.val
    · exact .inl ⟨v, rest, ha ▸ j.isLt, ha ▸ hp⟩
    · exact absurd (readByte_writeByte_ne (s.withPort rest) ha b) hne
  · exact absurd rfl hne
  · by_cases hother : (∀ ra, i ≠ .tob ra) ∨ 32 ≤ a
    · exact absurd (readByte_exec_of_not_tob hu hother) hne
    · simp only [not_or, Classical.not_forall, Classical.not_not, Nat.not_le] at hother
      obtain ⟨⟨ra, rfl⟩, ha⟩ := hother
      exact .inr ⟨v, rest, ra, ha, hp, hd⟩

theorem writer_of_eqFlag_ne (hne : t.eqFlag ≠ s.eqFlag) :
    ∃ v rest ra rb, s.port = .access (.write 0x00 32 v) :: rest ∧ decode (BitVec.ofNat 32 v) = .command (.eq ra rb) := by
  obtain heq | ⟨j, b, v, rest, -, rfl⟩ | ⟨v, rest, hp, rfl | ⟨i, u, hd, hu, rfl⟩⟩ := step_writer_cases h hreset
  · exact absurd (congrArg State.eqFlag heq) hne
  · exact absurd rfl hne
  · exact absurd rfl hne
  · by_cases hother : ∀ ra rb, i ≠ .eq ra rb
    · exact absurd (eqFlag_exec_of_not_eq hu hother) hne
    · simp only [Classical.not_forall, Classical.not_not] at hother
      obtain ⟨ra, rb, rfl⟩ := hother
      exact ⟨v, rest, ra, rb, hp, hd⟩

theorem writer_of_cc_ne (hne : t.cc ≠ s.cc) : ∃ v rest, s.port = .access (.write 0x00 32 v) :: rest := by
  obtain heq | ⟨j, b, v, rest, -, rfl⟩ | ⟨v, rest, hp, -⟩ := step_writer_cases h hreset
  · exact absurd (congrArg State.cc heq) hne
  · exact absurd rfl hne
  · exact ⟨v, rest, hp⟩

end

/-- Settles O17: of what a step can be, only the listed writer of a part does not leave that part as it was. -/
theorem onlyListedWritersChangeState : Obligations.OnlyListedWritersChangeState := by
  unfold Obligations.OnlyListedWritersChangeState
  intro s t h hreset
  exact ⟨fun _ => writer_of_readReg_ne h hreset, fun _ => writer_of_readByte_ne h hreset, writer_of_eqFlag_ne h hreset,
    writer_of_cc_ne h hreset⟩

/-! ### The invariant -/

/-- After a host operation the invariant asks that the buffer be in canonical form and the reply say what `STATUS` says. -/
theorem inv_withReply_iff (s : State) (r : HostReply) :
    (s.withReply r).Inv ↔
      Memory.wf s.buf ∧ (∀ code, r = .issued code → s.cc = code) ∧ (∀ w, r = .status w → s.statusWord = w) := by
  simp [State.Inv, State.statusWord]

theorem inv_resetEvent (s : State) (rest : List Input) : (resetEvent s rest).Inv := ⟨reset_buf_wf, nofun, nofun⟩

/-- Settles O15: the buffer is empty and there is no reply. -/
theorem resetMeetsInvariant : Obligations.ResetMeetsInvariant := ⟨reset_buf_wf, nofun, nofun⟩

/-- Settles O16: every operation keeps the buffer's form, and the reply of an issue or a status read is taken from the `STATUS` it
leaves. -/
theorem stepKeepsInvariant : Obligations.StepKeepsInvariant := by
  unfold Obligations.StepKeepsInvariant
  intro s t hs h
  obtain ⟨-, rfl⟩ | ⟨rest, -, rfl⟩ | ⟨a, rest, -, hop⟩ := step_cases h
  · exact hs
  · exact inv_resetEvent s rest
  obtain ⟨hwf, -, -⟩ := hs
  obtain ⟨-, rfl⟩ | ⟨j, -, rfl⟩ | ⟨j, b, -, rfl⟩ | ⟨w, why, -, -, rfl⟩ | ⟨w, i, -, -, he⟩ := hop
  · exact (inv_withReply_iff _ _).mpr ⟨hwf, nofun, fun _ => HostReply.status.inj⟩
  · exact (inv_withReply_iff _ _).mpr ⟨hwf, nofun, nofun⟩
  · exact (inv_withReply_iff _ _).mpr ⟨Memory.insert_wf hwf j.isLt b, nofun, nofun⟩
  · exact (inv_withReply_iff _ _).mpr ⟨hwf, fun _ => HostReply.issued.inj, nofun⟩
  · obtain ⟨u, hu, rfl⟩ := afterCommand_next he
    exact (inv_withReply_iff _ _).mpr ⟨buf_wf_exec hu hwf, fun _ => HostReply.issued.inj, nofun⟩

/-! ### Fully reduced registers (spec/10_state.md R13) -/

theorem addValue_lt_L {a b : Nat} (ha : a < Const.L) (hb : b < Const.L) : addValue a b < Const.L := by
  rw [addValue_eq_mod_L (by omega)]
  exact Nat.mod_lt _ L_pos

theorem subValue_lt_L {a b : Nat} (ha : a < Const.L) (hb : b < Const.L) : subValue a b < Const.L := by
  rw [subValue_eq_ite (lt_radix_of_lt_L ha) (by omega)]
  split <;> omega

theorem mmulValue_lt_L {a b : Nat} (ha : a < Const.L) (hb : b < Const.L) : mmulValue a b < Const.L :=
  redc_lt_L (mul_lt_domain_of_le_L (lt_radix_of_lt_L ha) (Nat.le_of_lt hb))

/-- Of the five constants only L itself is not below L. -/
theorem constOperand_lt_L {k : BitVec 8} {v : Nat} (hk : constOperand k = some v) (hne : k ≠ 1#8) : v < Const.L := by
  unfold constOperand at hk
  split at hk
  next => obtain rfl := Option.some.inj hk; exact L_pos
  next => exact absurd rfl hne
  next => obtain rfl := Option.some.inj hk; decide
  next => obtain rfl := Option.some.inj hk; decide
  next => obtain rfl := Option.some.inj hk; decide
  next => cases hk

theorem allReduced_writeReg {s : State} (hs : s.allReduced) (rd : RegId) {v : Nat} (hv : v < Const.L) :
    (s.writeReg rd v).allReduced := by
  intro r
  by_cases hr : r = rd
  · rw [hr, readReg_writeReg_same]
    exact Nat.lt_of_le_of_lt (Nat.mod_le _ _) hv
  · rw [readReg_writeReg_ne s hr]
    exact hs r

/-- From reduced registers a command writes a reduced value, or no register, unless it is `fb` or `ldc` of L. -/
theorem exec_writes_reduced {i : Instr} {s : State} (hs : s.allReduced) (hfb : ∀ rd, i ≠ .fb rd) (hldc : ∀ rd, i ≠ .ldc rd 1) :
    (∃ rd v, v < Const.L ∧ exec i s = complete (s.writeReg rd v)) ∨ i.dest? = none ∨ ∃ code, exec i s = raise code s := by
  cases i with
  | add rd ra rb => exact .inl ⟨rd, _, addValue_lt_L (hs ra) (hs rb), exec_add ..⟩
  | sub rd ra rb => exact .inl ⟨rd, _, subValue_lt_L (hs ra) (hs rb), exec_sub ..⟩
  | mul rd ra rb => exact .inl ⟨rd, _, mulValue_lt (readReg_lt s ra) (readReg_lt s rb), exec_mul ..⟩
  | sqr rd ra => exact .inl ⟨rd, _, mulValue_lt (readReg_lt s ra) (readReg_lt s ra), exec_sqr ..⟩
  | mmul rd ra rb => exact .inl ⟨rd, _, mmulValue_lt_L (hs ra) (hs rb), exec_mmul ..⟩
  | msqr rd ra => exact .inl ⟨rd, _, mmulValue_lt_L (hs ra) (hs ra), exec_msqr ..⟩
  | tomont rd ra => exact .inl ⟨rd, _, tomontValue_lt (readReg_lt s ra), exec_tomont ..⟩
  | frommont rd ra => exact .inl ⟨rd, _, frommontValue_lt (readReg_lt s ra), exec_frommont ..⟩
  | fbw rd len =>
    by_cases hlen : len = 64#8
    · subst hlen
      exact .inl ⟨rd, _, Nat.mod_lt _ L_pos, exec_fbw_wide ..⟩
    · exact .inr (.inr ⟨_, exec_fbw_other rd hlen s⟩)
  | tob ra => exact .inr (.inl rfl)
  | fb rd => exact absurd rfl (hfb rd)
  | ldc rd k =>
    cases hk : constOperand k with
    | some v => exact .inl ⟨rd, v, constOperand_lt_L hk fun h1 => hldc rd (h1 ▸ rfl), exec_ldc_legal hk rd s⟩
    | none => exact .inr (.inr ⟨_, exec_ldc_none hk rd s⟩)
  | eq ra rb => exact .inr (.inl rfl)

theorem allReduced_exec {i : Instr} {s t : State} (hs : s.allReduced) (hfb : ∀ rd, i ≠ .fb rd) (hldc : ∀ rd, i ≠ .ldc rd 1)
    (h : exec i s = .next t) : t.allReduced := by
  obtain ⟨rd, v, hv, he⟩ | hd | ⟨code, he⟩ := exec_writes_reduced hs hfb hldc
  · obtain rfl := complete_next (he.symm.trans h)
    exact allReduced_writeReg hs rd hv
  · intro r
    rw [readReg_exec_of_dest_ne h (by simp [hd])]
    exact hs r
  · obtain rfl := raise_next (he.symm.trans h)
    exact hs

/-- Settles O20: only an issued command writes registers, and each but `fb` and `ldc` of L writes a reduced value. -/
theorem fullyReducedIsKept : Obligations.FullyReducedIsKept := by
  unfold Obligations.FullyReducedIsKept
  intro s t hs h hreset hport
  obtain heq | ⟨j, b, -, rest, -, rfl⟩ | ⟨v, rest, hp, rfl | ⟨i, u, hd, hu, rfl⟩⟩ := step_writer_cases h hreset
  · rw [heq]
    exact hs
  · exact hs
  · exact hs
  · have hfb (rd : RegId) : i ≠ .fb rd := fun hi => (hport v rest rd hp).1 (hi ▸ hd)
    have hldc (rd : RegId) : i ≠ .ldc rd 1 := fun hi => (hport v rest rd hp).2 (hi ▸ hd)
    have hreduced : u.allReduced := allReduced_exec (s := s.withPort rest) hs hfb hldc hu
    exact hreduced

end Sys2Proof.Machine
end

section
/-! PROOFS. The squaring form of the product's columns (spec/41_datapath_primitives.md R67): a column's cross products above the middle
are those below it, so each below it counts twice. -/

namespace Sys2Proof.Machine

/-! ### Sums with few terms, and sums taken backwards -/

/-- Terms that are zero from the m-th on can be counted or not. -/
theorem sumBelow_extend {m n : Nat} {f : Nat → Nat} (hmn : m ≤ n) (hafter : ∀ i, m ≤ i → f i = 0) : sumBelow n f = sumBelow m f := by
  obtain ⟨r, rfl⟩ := Nat.exists_eq_add_of_le hmn
  rw [sumBelow_split, sumBelow_eq_zero fun j _ => hafter _ (Nat.le_add_right m j), Nat.add_zero]

theorem sumBelow_single {n m : Nat} {f : Nat → Nat} (hm : m < n) (hother : ∀ i, i ≠ m → f i = 0) : sumBelow n f = f m := by
  rw [sumBelow_extend hm fun i hi => hother i (Nat.ne_of_gt hi), sumBelow_succ,
    sumBelow_eq_zero fun i hi => hother i (Nat.ne_of_lt hi), Nat.zero_add]

theorem sumBelow_reverse (n : Nat) (f : Nat → Nat) : sumBelow (n + 1) f = sumBelow (n + 1) fun i => f (n - i) := by
  induction n with
  | zero => rfl
  | succ n ih =>
    rw [sumBelow_succ, ih, sumBelow_succ_first (n + 1), Nat.add_comm, Nat.sub_zero]
    exact congrArg _ (sumBelow_congr fun i _ => by rw [Nat.add_sub_add_right])

/-! ### The three parts of a column -/

/-- The cross product at place i of column k, when it lies below the middle: one that the squaring form computes. -/
def belowMiddle (a k i : Nat) : Nat := if 2 * i < k ∧ k - i ≤ 8 then limb a i * limb a (k - i) else 0

/-- The cross product at place i of column k, when it lies above the middle. -/
def aboveMiddle (a k i : Nat) : Nat := if k < 2 * i ∧ i ≤ k ∧ i ≤ 8 then limb a i * limb a (k - i) else 0

/-- The square at place i of column k, when i is its middle. -/
def onMiddle (a k i : Nat) : Nat := if 2 * i = k then limb a i ^ 2 else 0

theorem belowMiddle_eq_zero {k i : Nat} (h : ¬(2 * i < k ∧ k - i ≤ 8)) (a : Nat) : belowMiddle a k i = 0 := if_neg h

theorem aboveMiddle_eq_zero {k i : Nat} (h : ¬(k < 2 * i ∧ i ≤ k ∧ i ≤ 8)) (a : Nat) : aboveMiddle a k i = 0 := if_neg h

theorem onMiddle_eq_zero {k i : Nat} (h : 2 * i ≠ k) (a : Nat) : onMiddle a k i = 0 := if_neg h

/-- A place of the column lies below the middle, above it, or on it. -/
theorem columnTerm_self_eq (a : Nat) {k i : Nat} (hk : k < 18) (hi : i < 9) :
    columnTerm a a k i = belowMiddle a k i + aboveMiddle a k i + onMiddle a k i := by
  obtain hlt | heq | hgt := Nat.lt_trichotomy (2 * i) k
  · rw [aboveMiddle_eq_zero (by omega), onMiddle_eq_zero (by omega), columnTerm, belowMiddle]
    simp only [hlt, true_and, show i ≤ k by omega, Nat.add_zero]
  · have hmiddle : k - i = i := by omega
    rw [belowMiddle_eq_zero (by omega), aboveMiddle_eq_zero (by omega), onMiddle, if_pos heq, columnTerm, if_pos (by omega),
      hmiddle, Nat.pow_two]
    simp only [Nat.zero_add]
  · rw [belowMiddle_eq_zero (by omega), onMiddle_eq_zero (by omega), Nat.zero_add, Nat.add_zero]
    by_cases hik : i ≤ k
    · rw [columnTerm, if_pos (by omega), aboveMiddle, if_pos (by omega)]
    · rw [columnTerm_of_not (by omega), aboveMiddle_eq_zero (by omega)]

/-- Exchanging the two factors takes a product above the middle to one below it. -/
theorem belowMiddle_sub (a : Nat) {k i : Nat} (hi : i ≤ k) : belowMiddle a k (k - i) = aboveMiddle a k i := by
  have hsub : k - (k - i) = i := by omega
  by_cases h : k < 2 * i ∧ i ≤ 8
  · rw [belowMiddle, if_pos (by omega), aboveMiddle, if_pos (by omega), hsub, Nat.mul_comm]
  · rw [belowMiddle_eq_zero (by omega), aboveMiddle_eq_zero (by omega)]

theorem sumBelow_aboveMiddle (a : Nat) {k : Nat} (hk : k < 18) :
    sumBelow 9 (aboveMiddle a k) = sumBelow 9 (belowMiddle a k) := by
  calc sumBelow 9 (aboveMiddle a k)
      = sumBelow 18 (aboveMiddle a k) := (sumBelow_extend (by decide) fun i hi => aboveMiddle_eq_zero (by omega) a).symm
    _ = sumBelow (k + 1) (aboveMiddle a k) := sumBelow_extend hk fun i hi => aboveMiddle_eq_zero (by omega) a
    _ = sumBelow (k + 1) fun i => belowMiddle a k (k - i) :=
      sumBelow_congr fun i hi => (belowMiddle_sub a (Nat.le_of_lt_succ hi)).symm
    _ = sumBelow (k + 1) (belowMiddle a k) := (sumBelow_reverse k _).symm
    _ = sumBelow 18 (belowMiddle a k) := (sumBelow_extend hk fun i hi => belowMiddle_eq_zero (by omega) a).symm
    _ = sumBelow 9 (belowMiddle a k) := sumBelow_extend (by decide) fun i hi => belowMiddle_eq_zero (by omega) a

/-- The middle place holds a square, when the column has one. -/
theorem sumBelow_onMiddle (a : Nat) {k : Nat} (hk : k < 18) :
    sumBelow 9 (onMiddle a k) = if k % 2 = 0 then limb a (k / 2) ^ 2 else 0 := by
  split
  next heven =>
    rw [sumBelow_single (m := k / 2) (by omega) fun i hi => onMiddle_eq_zero (by omega) a, onMiddle, if_pos (by omega)]
  next hodd => exact sumBelow_eq_zero fun i _ => onMiddle_eq_zero (by omega) a

/-! ### The squaring form -/

theorem squareColumn_eq_sumBelow (a k : Nat) :
    squareColumn a k = 2 * sumBelow 9 (belowMiddle a k) + if k % 2 = 0 then limb a (k / 2) ^ 2 else 0 := by
  rw [mul_sumBelow, squareColumn]
  congr 1
  refine sumBelow_congr fun i _ => ?_
  rw [belowMiddle]
  split <;> rfl

theorem squareColumn_eq_productColumn (a : Nat) {k : Nat} (hk : k < 18) : squareColumn a k = productColumn a a k := by
  rw [productColumn_eq_sumBelow, sumBelow_congr fun i hi => columnTerm_self_eq a hk hi, sumBelow_add, sumBelow_add,
    sumBelow_aboveMiddle a hk, sumBelow_onMiddle a hk, squareColumn_eq_sumBelow, Nat.two_mul]

/-- Settles O43: column by column, the products below the middle twice and the middle square are the column of the product. -/
theorem squaringFormIsTheProduct : Obligations.SquaringFormIsTheProduct := by
  unfold Obligations.SquaringFormIsTheProduct
  intro a _
  exact List.map_congr_left fun k hk => squareColumn_eq_productColumn a (List.mem_range.mp hk)

end Sys2Proof.Machine
end

section
/-! PROOFS. The reduction on columns (spec/41_datapath_primitives.md R69): after n rounds the integer accumulator is the carry plus the
columns that are left, each with its share of the multiples of L; the 64-bit accumulators hold every such sum. -/

namespace Sys2Proof.Machine

set_option exponentiation.threshold 600

/-! ### Weighted column sums -/

/-- A weighted sum is its lowest column plus one limb's weight times the rest. -/
theorem sumBelow_weighted_succ (n : Nat) (f : Nat → Nat) :
    (sumBelow (n + 1) fun k => 2 ^ (29 * k) * f k) = f 0 + 2 ^ 29 * sumBelow n fun k => 2 ^ (29 * k) * f (k + 1) := by
  rw [sumBelow_succ_first, mul_sumBelow]
  simp only [limbWeight_succ, Nat.mul_assoc, Nat.mul_zero, Nat.pow_zero, Nat.one_mul]

theorem val_eq_sumBelow (z : List Nat) : val z = sumBelow z.length fun k => 2 ^ (29 * k) * z.getD k 0 := by
  induction z with
  | nil => rfl
  | cons a as ih =>
    rw [List.length_cons, sumBelow_weighted_succ, val_cons, ih]
    rfl

theorem limb_L_eq_zero {i : Nat} (hi : 9 ≤ i) : limb Const.L i = 0 := by
  have hlt : Const.L < 2 ^ (29 * i) :=
    Nat.lt_of_lt_of_le L_lt (Nat.pow_le_pow_right (by decide) (by omega))
  rw [limb, Nat.div_eq_of_lt hlt, Nat.zero_mod]

/-- L is the weighted sum of its limbs, however many zero limbs are counted. -/
theorem sumBelow_limbs_L {n : Nat} (hn : 9 ≤ n) : (sumBelow n fun k => 2 ^ (29 * k) * limb Const.L k) = Const.L := by
  obtain ⟨r, rfl⟩ := Nat.exists_eq_add_of_le hn
  have hzero (j : Nat) : 2 ^ (29 * (9 + j)) * limb Const.L (9 + j) = 0 := by
    rw [limb_L_eq_zero (Nat.le_add_right 9 j), Nat.mul_zero]
  rw [sumBelow_split, sumBelow_limbs (Nat.lt_trans L_lt (by decide)), sumBelow_eq_zero fun j _ => hzero j, Nat.add_zero]

/-! ### The integer rounds on columns -/

/-- Column k after n rounds: its entry in `z` and its share of the n multiples of L. -/
def roundColumn (z : List Nat) (n k : Nat) : Nat :=
  z.getD k 0 + sumBelow n fun j => redcMultiplier (redcRounds j (val z)) * limb Const.L (k - j)

/-- What the first n rounds carry into column n. -/
def roundCarry (z : List Nat) : Nat → Nat
  | 0 => 0
  | n + 1 => (roundCarry z n + roundColumn z (n + 1) n) / 2 ^ 29

theorem roundColumn_zero (z : List Nat) (k : Nat) : roundColumn z 0 k = z.getD k 0 := rfl

theorem roundColumn_succ (z : List Nat) (n k : Nat) :
    roundColumn z (n + 1) k = roundColumn z n k + redcMultiplier (redcRounds n (val z)) * limb Const.L (k - n) := by
  rw [roundColumn, sumBelow_succ, ← Nat.add_assoc, roundColumn]

theorem roundCarry_succ (z : List Nat) (n : Nat) :
    roundCarry z (n + 1) = (roundCarry z n + roundColumn z (n + 1) n) / 2 ^ 29 := rfl

section
variable {z : List Nat} (hlen : z.length = 18)
include hlen

/-- The accumulator after n rounds: the carry, and the columns from n on. -/
theorem redcRounds_eq_columns {n : Nat} (hn : n ≤ 9) :
    redcRounds n (val z) = roundCarry z n + sumBelow (18 - n) fun k => 2 ^ (29 * k) * roundColumn z n (n + k) := by
  induction n with
  | zero =>
    rw [redcRounds_zero, val_eq_sumBelow, hlen, roundCarry, Nat.zero_add]
    exact sumBelow_congr fun k _ => by rw [roundColumn_zero, Nat.zero_add]
  | succ n ih =>
    have hcount : 18 - n = 18 - (n + 1) + 1 := by omega
    have hadd : redcRounds n (val z) + redcMultiplier (redcRounds n (val z)) * Const.L =
        roundCarry z n + roundColumn z (n + 1) n
          + 2 ^ 29 * sumBelow (18 - (n + 1)) fun k => 2 ^ (29 * k) * roundColumn z (n + 1) (n + 1 + k) := by
      calc redcRounds n (val z) + redcMultiplier (redcRounds n (val z)) * Const.L
          = roundCarry z n + ((sumBelow (18 - n) fun k => 2 ^ (29 * k) * roundColumn z n (n + k))
              + redcMultiplier (redcRounds n (val z)) * sumBelow (18 - n) fun k => 2 ^ (29 * k) * limb Const.L k) := by
            rw [sumBelow_limbs_L (by omega), ← Nat.add_assoc, ← ih (by omega)]
        _ = roundCarry z n + sumBelow (18 - n) fun k => 2 ^ (29 * k) * roundColumn z (n + 1) (n + k) := by
            rw [mul_sumBelow, ← sumBelow_add]
            refine congrArg _ (sumBelow_congr fun k _ => ?_)
            rw [roundColumn_succ, Nat.add_sub_cancel_left, Nat.mul_add, Nat.mul_left_comm]
        _ = _ := by
            rw [hcount, sumBelow_weighted_succ, ← Nat.add_assoc]
            simp only [Nat.add_zero, Nat.add_assoc, Nat.add_comm 1]
    rw [redcRounds_succ, redcRound, hadd, Nat.add_mul_div_left _ _ (by decide), roundCarry_succ]

theorem redcRounds_mod_eq {n : Nat} (hn : n < 9) :
    redcRounds n (val z) % 2 ^ 29 = (roundCarry z n + roundColumn z n n) % 2 ^ 29 := by
  have hcount : 18 - n = 17 - n + 1 := by omega
  rw [redcRounds_eq_columns hlen (Nat.le_of_lt hn), hcount, sumBelow_weighted_succ, Nat.add_zero, ← Nat.add_assoc,
    Nat.add_mul_mod_self_left]

end

/-! ### No accumulator overflows (spec/00_scope.md R6) -/

/-- Every column is small enough to be reduced with 64-bit accumulators. -/
def ColumnsBounded (z : List Nat) : Prop := ∀ k, z.getD k 0 < 2 ^ 62

theorem acc64_of_lt {x : Nat} (h : x < 2 ^ 64) : acc64 x = x := Nat.mod_eq_of_lt h

section
variable {z : List Nat} (hz : ColumnsBounded z)
include hz

theorem roundColumn_lt {n : Nat} (hn : n ≤ 9) (k : Nat) : roundColumn z n k < 2 ^ 63 := by
  have hterm (j : Nat) : redcMultiplier (redcRounds j (val z)) * limb Const.L (k - j) ≤ (2 ^ 29 - 1) * (2 ^ 29 - 1) :=
    Nat.mul_le_mul (Nat.le_pred_of_lt (redcMultiplier_lt _)) (Nat.le_pred_of_lt (limb_lt _ _))
  have hsum := Nat.le_trans (sumBelow_le (n := n) hterm) (Nat.mul_le_mul_right _ hn)
  have hcolumn := hz k
  rw [roundColumn]
  omega

theorem roundCarry_lt {n : Nat} (hn : n ≤ 9) : roundCarry z n < 2 ^ 35 := by
  induction n with
  | zero => exact Nat.two_pow_pos 35
  | succ n ih =>
    have hcarry := ih (by omega)
    have hcolumn := roundColumn_lt hz hn n
    rw [roundCarry_succ]
    omega

end

/-! ### The low half: the multipliers -/

theorem multiplierSum_eq_sumBelow (m : List Nat) (i lo hi : Nat) :
    multiplierSum m i lo hi = sumBelow hi fun j => if lo ≤ j then m.getD j 0 * limb Const.L (i - j) else 0 := rfl

/-- The multipliers of the first n integer rounds. -/
def roundMultipliers (p n : Nat) : List Nat := (List.range n).map fun i => redcMultiplier (redcRounds i p)

theorem roundMultipliers_succ (p n : Nat) :
    roundMultipliers p (n + 1) = roundMultipliers p n ++ [redcMultiplier (redcRounds n p)] := by
  rw [roundMultipliers, List.range_succ, List.map_append, List.map_singleton, roundMultipliers]

theorem getD_map_range (f : Nat → Nat) {n j : Nat} (hj : j < n) : ((List.range n).map f).getD j 0 = f j := by simp [hj]

theorem getD_roundMultipliers (p : Nat) {n j : Nat} (hj : j < n) :
    (roundMultipliers p n).getD j 0 = redcMultiplier (redcRounds j p) := getD_map_range _ hj

/-- Before round n, the sum over its multipliers is the share of column n. -/
theorem column_add_multiplierSum_low (z : List Nat) (n : Nat) :
    z.getD n 0 + multiplierSum (roundMultipliers (val z) n) n 0 n = roundColumn z n n := by
  rw [multiplierSum_eq_sumBelow, roundColumn]
  exact congrArg _ (sumBelow_congr fun j hj => by rw [if_pos (Nat.zero_le j), getD_roundMultipliers _ hj])

/-- Past round 9, the sum over the multipliers whose limb of L is not zero is the share of column 9 + n. -/
theorem column_add_multiplierSum_high (z : List Nat) (n : Nat) :
    z.getD (9 + n) 0 + multiplierSum (roundMultipliers (val z) 9) (9 + n) (9 + n - 8) 9 = roundColumn z 9 (9 + n) := by
  rw [multiplierSum_eq_sumBelow, roundColumn]
  refine congrArg _ (sumBelow_congr fun j hj => ?_)
  split
  next => rw [getD_roundMultipliers _ hj]
  next hlow => rw [limb_L_eq_zero (by omega), Nat.mul_zero]

theorem roundColumn_last (z : List Nat) : roundColumn z 9 17 = z.getD 17 0 := by
  rw [roundColumn, sumBelow_eq_zero fun j hj => by rw [limb_L_eq_zero (by omega), Nat.mul_zero], Nat.add_zero]

/-- One round from the accumulator with column n: the multiplier and the carry. -/
theorem redcLow_succ_of_eq {z m : List Nat} {n c acc : Nat} (h : redcLow z n = (m, c))
    (hacc : acc64 (z.getD n 0 + c + multiplierSum m n 0 n) = acc) :
    redcLow z (n + 1) = (m ++ [redcMultiplier acc], acc64 (acc + redcMultiplier acc * limb Const.L 0) / 2 ^ 29) := by
  subst hacc
  rw [redcLow, h]
  rfl

/-- One column of the high half: its limb and the carry. -/
theorem redcHigh_succ_of_eq {z m t : List Nat} {carry n c acc : Nat} (h : redcHigh z m carry n = (t, c))
    (hacc : acc64 (z.getD (9 + n) 0 + c + multiplierSum m (9 + n) (9 + n - 8) 9) = acc) :
    redcHigh z m carry (n + 1) = (t ++ [acc % 2 ^ 29], acc / 2 ^ 29) := by
  subst hacc
  rw [redcHigh, h]

theorem redcColumns_of_eq {z m t : List Nat} {carry c : Nat} (hlow : redcLow z 9 = (m, carry))
    (hhigh : redcHigh z m carry 8 = (t, c)) : redcColumns z = t ++ [acc64 (z.getD 17 0 + c)] := by
  rw [redcColumns, hlow]
  simp only [hhigh]

theorem redcMultiplier_congr {t u : Nat} (h : t % 2 ^ 29 = u % 2 ^ 29) : redcMultiplier t = redcMultiplier u := by
  rw [redcMultiplier, h, redcMultiplier]

/-- The limb level finds the integer rounds' multipliers, and the carry of the columns. -/
theorem redcLow_eq {z : List Nat} (hlen : z.length = 18) (hz : ColumnsBounded z) {n : Nat} (hn : n ≤ 9) :
    redcLow z n = (roundMultipliers (val z) n, roundCarry z n) := by
  induction n with
  | zero => rfl
  | succ n ih =>
    have hcarry := roundCarry_lt hz (n := n) (by omega)
    have hbefore := roundColumn_lt hz (n := n) (by omega) n
    have hafter := roundColumn_lt hz hn n
    have hacc : acc64 (z.getD n 0 + roundCarry z n + multiplierSum (roundMultipliers (val z) n) n 0 n) =
        roundCarry z n + roundColumn z n n := by
      rw [Nat.add_right_comm, column_add_multiplierSum_low, Nat.add_comm, acc64_of_lt (by omega)]
    have hmultiplier : redcMultiplier (roundCarry z n + roundColumn z n n) = redcMultiplier (redcRounds n (val z)) :=
      redcMultiplier_congr (redcRounds_mod_eq hlen hn).symm
    have hcolumn : roundColumn z n n + redcMultiplier (redcRounds n (val z)) * limb Const.L 0 = roundColumn z (n + 1) n := by
      rw [roundColumn_succ, Nat.sub_self]
    rw [redcLow_succ_of_eq (ih (by omega)) hacc, hmultiplier, Nat.add_assoc, hcolumn, acc64_of_lt (by omega),
      roundMultipliers_succ, roundCarry_succ]

/-! ### The high half: the limbs of the result -/

/-- A column split into the limb it leaves and its carry keeps its weight. -/
theorem val_append_limb (t : List Nat) (x : Nat) :
    val (t ++ [x % 2 ^ 29]) + 2 ^ (29 * (t.length + 1)) * (x / 2 ^ 29) = val t + 2 ^ (29 * t.length) * x := by
  rw [val_append_singleton, limbWeight_succ, Nat.mul_comm (2 ^ 29), Nat.mul_assoc, Nat.add_assoc, ← Nat.mul_add, Nat.mod_add_div]

/-- The first n limbs of the high half and its carry hold the first n of its columns and the carry in. -/
theorem redcHigh_spec {z : List Nat} (hz : ColumnsBounded z) {carry n : Nat} (hcarry : carry < 2 ^ 35) {t : List Nat} {c : Nat}
    (h : redcHigh z (roundMultipliers (val z) 9) carry n = (t, c)) :
    val t + 2 ^ (29 * n) * c = carry + (sumBelow n fun k => 2 ^ (29 * k) * roundColumn z 9 (9 + k)) ∧
    c < 2 ^ 35 ∧ t.length = n ∧ ∀ l ∈ t, l < 2 ^ 29 := by
  induction n generalizing t c with
  | zero =>
    obtain ⟨rfl, rfl⟩ := Prod.mk.inj h
    exact ⟨by rw [val_nil, Nat.zero_add, Nat.mul_zero, Nat.pow_zero, Nat.one_mul, sumBelow_zero, Nat.add_zero], hcarry, rfl, nofun⟩
  | succ n ih =>
    have hcolumn := roundColumn_lt hz (Nat.le_refl 9) (9 + n)
    cases hr : redcHigh z (roundMultipliers (val z) 9) carry n with
    | mk t' c' =>
      obtain ⟨hval, hc', hlength, hlimbs⟩ := ih hr
      have hacc : acc64 (z.getD (9 + n) 0 + c' + multiplierSum (roundMultipliers (val z) 9) (9 + n) (9 + n - 8) 9) =
          c' + roundColumn z 9 (9 + n) := by
        rw [Nat.add_right_comm, column_add_multiplierSum_high, Nat.add_comm, acc64_of_lt (by omega)]
      obtain ⟨rfl, rfl⟩ := Prod.mk.inj ((redcHigh_succ_of_eq hr hacc).symm.trans h)
      refine ⟨?value, by omega, by rw [List.length_append, hlength, List.length_singleton],
        List.forall_mem_append.mpr ⟨hlimbs, List.forall_mem_singleton.mpr (Nat.mod_lt _ (by decide))⟩⟩
      case value =>
        rw [← hlength, val_append_limb, hlength, Nat.mul_add, ← Nat.add_assoc, hval, sumBelow_succ, Nat.add_assoc]

/-! ### The whole reduction -/

section
variable {z : List Nat} (hlen : z.length = 18) (hz : ColumnsBounded z)
include hlen hz

/-- The nine columns before the last step are eight limbs and a top column, and have the nine integer rounds' value. -/
theorem redcColumns_spec :
    val (redcColumns z) = redcRounds 9 (val z) ∧ (redcColumns z).length = 9 ∧ ∀ l ∈ (redcColumns z).take 8, l < 2 ^ 29 := by
  cases hr : redcHigh z (roundMultipliers (val z) 9) (roundCarry z 9) 8 with
  | mk t c =>
    obtain ⟨hval, hcarry, hlength, hlimbs⟩ := redcHigh_spec hz (roundCarry_lt hz (Nat.le_refl 9)) hr
    have hlast := hz 17
    have hcolumns : redcColumns z = t ++ [z.getD 17 0 + c] := by
      rw [redcColumns_of_eq (redcLow_eq hlen hz (Nat.le_refl 9)) hr, acc64_of_lt (by omega)]
    refine ⟨?value, by rw [hcolumns, List.length_append, hlength, List.length_singleton], ?limbs⟩
    case value =>
      rw [hcolumns, val_append_singleton, hlength, redcRounds_eq_columns hlen (Nat.le_refl 9), sumBelow_succ, roundColumn_last,
        ← Nat.add_assoc, ← hval, Nat.add_right_comm, Nat.mul_add, Nat.add_assoc]
    case limbs =>
      rwa [hcolumns, List.take_left' hlength]

theorem redcColumns_top_lt (hp : val z < 2 ^ 522) : (redcColumns z).getD 8 0 < 2 ^ 30 := by
  obtain ⟨hval, hlength, -⟩ := redcColumns_spec hlen hz
  have hL := L_lt
  have hlt := redcRounds_nine_lt hp
  have h8 : ((redcColumns z).take 8).length = 8 := by simp [hlength]
  rw [← hval, eq_take_append_getD hlength, val_append_singleton, h8] at hlt
  omega

/-- The limb level computes REDC of the columns' value. -/
theorem redcLimbs_spec (hp : val z < 2 ^ 522) :
    val (redcLimbs z) = redc (val z) ∧ (redcLimbs z).length = 9 ∧ ∀ l ∈ redcLimbs z, l < 2 ^ 29 := by
  obtain ⟨hval, hlength, hlow⟩ := redcColumns_spec hlen hz
  obtain ⟨-, hselect⟩ := maskedSelectIsConditionalSubtraction
  obtain ⟨-, hexact, hnine, hlimbs⟩ := hselect (redcColumns z) hlength hlow (redcColumns_top_lt hlen hz hp)
  rw [hval] at hexact
  exact ⟨hexact (redcRounds_nine_lt hp), hnine, hlimbs⟩

end

/-! ### The two kinds of columns the machine reduces -/

theorem columnsBounded_of_mem {z : List Nat} (h : ∀ x ∈ z, x < 2 ^ 62) : ColumnsBounded z := by
  intro k
  rw [List.getD_eq_getElem?_getD]
  cases hk : z[k]? with
  | none => exact Nat.two_pow_pos 62
  | some x => exact h x (List.mem_of_getElem? hk)

theorem productColumns_bounded (a b : Nat) : ColumnsBounded (productColumns a b) := by
  refine columnsBounded_of_mem fun x hx => ?_
  obtain ⟨k, -, rfl⟩ := List.mem_map.mp hx
  exact Nat.lt_of_le_of_lt (productColumn_le a b k) (by decide)

theorem extendedColumns_bounded (a : Nat) : ColumnsBounded (extendedColumns a) := by
  refine columnsBounded_of_mem fun x hx => ?_
  rcases List.mem_append.mp hx with hx | hx
  · exact Nat.lt_trans (limbs_lt hx) (by decide)
  · rw [List.eq_of_mem_replicate hx]
    exact Nat.two_pow_pos 62

theorem val_append_replicate_zero (x : List Nat) (n : Nat) : val (x ++ List.replicate n 0) = val x := by
  induction n with
  | zero => rw [List.replicate_zero, List.append_nil]
  | succ n ih => rw [List.replicate_succ', ← List.append_assoc, val_append_singleton, ih, Nat.mul_zero, Nat.add_zero]

theorem val_extendedColumns {a : Nat} (ha : a < 2 ^ 261) : val (extendedColumns a) = a := by
  rw [extendedColumns, val_append_replicate_zero, val_limbs ha]

/-- Settles O46: the columns of a product, and of a register, have the value reduced and are small enough for the accumulators. -/
theorem limbReductionRefinesInteger : Obligations.LimbReductionRefinesInteger := by
  unfold Obligations.LimbReductionRefinesInteger
  intro a b ha hb
  have hz := productColumns_bounded a b
  have hlen : (productColumns a b).length = 18 := rfl
  have hp : val (productColumns a b) < 2 ^ 522 :=
    Nat.lt_of_le_of_lt (Nat.le_of_eq (val_productColumns ha hb)) (product_lt ha hb)
  have hext : val (extendedColumns a) < 2 ^ 522 :=
    Nat.lt_of_le_of_lt (Nat.le_of_eq (val_extendedColumns ha)) (Nat.lt_trans ha (by decide))
  obtain ⟨hcolumns, -, -⟩ := redcColumns_spec hlen hz
  obtain ⟨hval, hlength, hlimbs⟩ := redcLimbs_spec hlen hz hp
  obtain ⟨hextended, -, -⟩ := redcLimbs_spec (by simp [extendedColumns]) (extendedColumns_bounded a) hext
  have hlow : (redcLow (productColumns a b) 9).1 = roundMultipliers (val (productColumns a b)) 9 := by
    rw [redcLow_eq hlen hz (Nat.le_refl 9)]
  rw [val_productColumns ha hb] at hcolumns hval hlow
  rw [val_extendedColumns ha] at hextended
  exact ⟨hlow, hcolumns, hval, hlength, hlimbs, hextended⟩

end Sys2Proof.Machine
end

section
/-! PROOFS. Blocks of bytes as little-endian integers (spec/20_memory.md section 2), and the round trips of `tob`, `fb` and `fbw`
(spec/45_serialization.md). -/

namespace Sys2Proof.Machine

set_option exponentiation.threshold 600

/-! ### Blocks -/

/-- A block is its first m bytes and, above them, the rest. -/
theorem memRead_add (s : State) (addr m n : Nat) :
    s.memRead addr (m + n) = s.memRead addr m + 2 ^ (8 * m) * s.memRead (addr + m) n := by
  rw [memRead_eq_sumBelow, memRead_eq_sumBelow, memRead_eq_sumBelow, sumBelow_split, mul_sumBelow]
  refine congrArg _ (sumBelow_congr fun j _ => ?_)
  rw [Nat.mul_left_comm, ← Nat.pow_add, Nat.mul_add, Nat.add_assoc]

theorem memRead_succ (s : State) (addr n : Nat) :
    s.memRead addr (n + 1) = (s.readByte addr).toNat + 2 ^ 8 * s.memRead (addr + 1) n := rfl

/-- The block's digit j to base 256 is its byte j. -/
theorem memRead_digit (s : State) (addr : Nat) {n j : Nat} (hj : j < n) :
    s.memRead addr n / 2 ^ (8 * j) % 2 ^ 8 = (s.readByte (addr + j)).toNat := by
  obtain ⟨d, rfl⟩ := Nat.exists_eq_add_of_lt hj
  rw [Nat.add_assoc, memRead_add, memRead_succ, Nat.add_mul_div_left _ _ (Nat.two_pow_pos _),
    Nat.div_eq_of_lt (memRead_lt s addr j), Nat.zero_add, Nat.add_mul_mod_self_left, Nat.mod_eq_of_lt (BitVec.isLt _)]

theorem memRead_eq_zero {s : State} {addr n : Nat} (h : ∀ j, addr ≤ j → j < addr + n → s.readByte j = 0) :
    s.memRead addr n = 0 := by
  rw [memRead_eq_sumBelow]
  refine sumBelow_eq_zero fun j hj => ?_
  rw [h (addr + j) (Nat.le_add_right addr j) (Nat.add_lt_add_left hj addr)]
  exact Nat.zero_mul _

/-- Settles O41: a block read is a weighted sum, which the write's digits fill, and 64 bytes are 32 and 32 above them. -/
theorem blocksAreLittleEndian : Obligations.BlocksAreLittleEndian := by
  unfold Obligations.BlocksAreLittleEndian
  intro s
  refine ⟨memRead_eq_sumBelow s, fun addr n v hv => ⟨memRead_memWrite s addr n v hv, fun j hj => ?byte, fun a ha => ?outside⟩,
    ?halves⟩
  case byte => rw [readByte_memWrite_inside s addr n v j hj, BitVec.toNat_ofNat]
  case outside => exact readByte_memWrite_outside s addr n v ha
  case halves => rw [memRead_add s 0 32 32, Nat.add_mul_mod_self_left, Nat.mod_eq_of_lt (memRead_lt s 0 32)]

/-! ### What `fb` and `fbw` leave in the destination -/

/-- The state `fb rd` ends in. -/
def fbState (rd : RegId) (s : State) : State := (s.writeReg rd (s.memRead 0 32)).setCC .ok

theorem exec_fb_eq_next (rd : RegId) (s : State) : exec (.fb rd) s = .next (fbState rd s) := exec_fb rd s

@[simp] theorem readByte_fbState (rd : RegId) (s : State) (a : Nat) : (fbState rd s).readByte a = s.readByte a := rfl

theorem readReg_fbState (rd : RegId) (s : State) : (fbState rd s).readReg rd = s.memRead 0 32 :=
  readReg_of_complete_writeReg (Nat.lt_trans (memRead_lt s 0 32) (by decide)) rfl

/-- The state `fbw rd, 64` ends in. -/
def fbwState (rd : RegId) (s : State) : State := (s.writeReg rd (s.memRead 0 64 % Const.L)).setCC .ok

theorem exec_fbw_eq_next (rd : RegId) (s : State) : exec (.fbw rd 64) s = .next (fbwState rd s) := exec_fbw_wide rd s

theorem readReg_fbwState (rd : RegId) (s : State) : (fbwState rd s).readReg rd = s.memRead 0 64 % Const.L :=
  readReg_of_complete_writeReg (lt_radix_of_lt_L (Nat.mod_lt _ L_pos)) rfl

/-! ### Round trips -/

@[simp] theorem memRead_setCC (s : State) (c : CompletionCode) (addr n : Nat) :
    (s.setCC c).memRead addr n = s.memRead addr n := memRead_congr fun _ _ _ => rfl

theorem memRead_tobState (ra : RegId) (s : State) : (tobState ra s).memRead 0 32 = s.readReg ra % 2 ^ 256 := by
  rw [tobState, memRead_setCC, memRead_memWrite s 0 32 _ (Nat.mod_lt _ (Nat.two_pow_pos 256))]

/-- The bytes written back are the digits of the integer loaded: the bytes it was loaded from. -/
theorem readByte_tobState_fbState (rd : RegId) (s : State) (a : Nat) :
    (tobState rd (fbState rd s)).readByte a = s.readByte a := by
  by_cases ha : a < 32
  · apply BitVec.eq_of_toNat_eq
    rw [toNat_readByte_tobState rd _ ha, readReg_fbState, memRead_digit s 0 ha, Nat.zero_add]
  · rw [readByte_tobState_of_le rd _ (Nat.le_of_not_lt ha), readByte_fbState]

/-- Settles O38: `fb` reads the block `tob` wrote, and `tob` writes the digits of the block `fb` read. -/
theorem serializationRoundTrips : Obligations.SerializationRoundTrips := by
  unfold Obligations.SerializationRoundTrips
  refine ⟨fun ra rd s => ?register, fun rd s => ?bytes⟩
  case register =>
    have hreg : (fbState rd (tobState ra s)).readReg rd = s.readReg ra % 2 ^ 256 := by
      rw [readReg_fbState, memRead_tobState]
    exact ⟨_, _, exec_tob_eq_next ra s, exec_fb_eq_next rd _, hreg, fun hlt => hreg.trans (Nat.mod_eq_of_lt hlt)⟩
  case bytes => exact ⟨_, _, exec_fb_eq_next rd s, exec_tob_eq_next rd _, readByte_tobState_fbState rd s⟩

/-! ### `fb` against `fbw` -/

theorem coprime_L_two_pow_256 : Nat.Coprime Const.L (2 ^ 256) := by decide

/-- An integer is the residue of itself under a high half exactly when it is a residue and the high half vanishes modulo L. -/
theorem eq_wide_mod_L_iff (lo hi : Nat) : lo = (lo + 2 ^ 256 * hi) % Const.L ↔ lo < Const.L ∧ Const.L ∣ hi := by
  constructor
  · intro h
    have hlt : lo < Const.L := h ▸ Nat.mod_lt _ L_pos
    have hdiv := Nat.div_add_mod (lo + 2 ^ 256 * hi) Const.L
    rw [← h, Nat.add_comm] at hdiv
    have hdvd : Const.L ∣ 2 ^ 256 * hi := ⟨_, (Nat.add_left_cancel hdiv).symm⟩
    exact ⟨hlt, coprime_L_two_pow_256.dvd_of_dvd_mul_left hdvd⟩
  · rintro ⟨hlt, q, rfl⟩
    rw [Nat.mul_left_comm, Nat.add_mul_mod_self_left, Nat.mod_eq_of_lt hlt]

theorem readReg_fbState_eq_fbwState_iff (rd : RegId) (s : State) :
    (fbState rd s).readReg rd = (fbwState rd s).readReg rd ↔ s.memRead 0 32 < Const.L ∧ Const.L ∣ s.memRead 32 32 := by
  rw [readReg_fbState, readReg_fbwState, memRead_add s 0 32 32]
  exact eq_wide_mod_L_iff _ _

/-- Settles O39: 2^256 has an inverse modulo L, so the high half counts for nothing only when L divides it. -/
theorem fbAgreesWithFbwWhenHighHalfDivisible : Obligations.FbAgreesWithFbwWhenHighHalfDivisible := by
  unfold Obligations.FbAgreesWithFbwWhenHighHalfDivisible
  intro rd s
  have hiff := readReg_fbState_eq_fbwState_iff rd s
  refine ⟨_, _, exec_fb_eq_next rd s, exec_fbw_eq_next rd s, hiff, fun hzero hlt => hiff.mpr ⟨hlt, ?_⟩⟩
  rw [memRead_eq_zero hzero]
  exact Nat.dvd_zero _

/-- A buffer whose low half is 0 and whose high half is L. -/
def highHalfL : State := State.reset.memWrite 0 64 (2 ^ 256 * Const.L)

theorem halves_highHalfL : highHalfL.memRead 0 32 = 0 ∧ highHalfL.memRead 32 32 = Const.L := by
  have hL := L_lt
  have hwide : highHalfL.memRead 0 64 = 2 ^ 256 * Const.L := memRead_memWrite _ 0 64 _ (by omega)
  have hlow := memRead_lt highHalfL 0 32
  rw [memRead_add _ 0 32 32, Nat.zero_add] at hwide
  omega

/-- Refutes O40: with a high half equal to L both commands store the low half 0, and L's bytes are not all zero. -/
theorem not_fbAgreesWithFbwOnlyWhenHighBytesZero : ¬Obligations.FbAgreesWithFbwOnlyWhenHighBytesZero := by
  unfold Obligations.FbAgreesWithFbwOnlyWhenHighBytesZero
  intro h
  obtain ⟨hlow, hhigh⟩ := halves_highHalfL
  have hagree : (fbState 0 highHalfL).readReg 0 = (fbwState 0 highHalfL).readReg 0 :=
    (readReg_fbState_eq_fbwState_iff 0 highHalfL).mpr ⟨hlow ▸ L_pos, hhigh ▸ Nat.dvd_refl _⟩
  obtain ⟨hzero, -⟩ := (h 0 highHalfL _ _ (exec_fb_eq_next 0 highHalfL) (exec_fbw_eq_next 0 highHalfL)).mp hagree
  exact absurd (hhigh.symm.trans (memRead_eq_zero hzero)) (Nat.ne_of_gt L_pos)

end Sys2Proof.Machine
end

section
/-! PROOFS. The status word and the constants (spec/10_state.md sections 3 and 5), the host operations and the reset event
(spec/20_memory.md section 3, spec/70_reset_and_hazards.md), and what an operation sees of the one before it (spec/20_memory.md
section 5). -/

namespace Sys2Proof.Machine

set_option exponentiation.threshold 300

/-! ### The constants and the status word -/

/-- Settles O49: closed facts, evaluated. -/
theorem constantsAreTheirFormulas : Obligations.ConstantsAreTheirFormulas := by
  unfold Obligations.ConstantsAreTheirFormulas
  decide +kernel

theorem toNat_statusWord (s : State) : s.statusWord.toNat = s.eqFlag.toNat * 4 + s.cc.bits.toNat := by
  have hzero : (0 : BitVec 29).toNat = 0 := rfl
  rw [State.statusWord, toNat_append_add, toNat_append_add, hzero, BitVec.toNat_ofBool]
  omega

theorem statusWord_eq_zero {s : State} (hflag : s.eqFlag = false) (hcc : s.cc = .ok) : s.statusWord = 0 := by
  rw [State.statusWord, hflag, hcc]
  rfl

/-- Settles O50: the word is four times the flag plus the code's number, which is below 3. -/
theorem statusWordHasItsLayout : Obligations.StatusWordHasItsLayout := by
  unfold Obligations.StatusWordHasItsLayout
  refine ⟨fun s => ?_, rfl⟩
  rw [toNat_statusWord]
  generalize s.eqFlag = flag, s.cc = code
  revert flag
  cases code <;> decide

/-! ### Single steps -/

/-- Settles O13: nothing is taken from an empty port. -/
theorem idleKeepsAllState : Obligations.IdleKeepsAllState := fun _ => step_of_empty

theorem regs_afterReset (n : Nat) (r : RegId) : (State.afterReset n).regs[r] = Config.resetScalar n r := by
  match r with
  | 0 | 1 | 2 | 3 | 4 | 5 | 6 | 7 => rfl

/-- Settles O14: the reset event leaves the state after the next reset, with what was presented behind it. -/
theorem resetEventLeavesResetState : Obligations.ResetEventLeavesResetState := by
  unfold Obligations.ResetEventLeavesResetState
  refine ⟨fun s rest h => ?_, rfl⟩
  exact ⟨_, step_of_reset h, statusWord_eq_zero rfl rfl, rfl, rfl, regs_afterReset _, fun _ => rfl, rfl⟩

/-- Settles O7: an issued word that decodes to a command is that command's `exec`, its outcome passed through. -/
theorem stepRunsDecodedCommand : Obligations.StepRunsDecodedCommand := by
  unfold Obligations.StepRunsDecodedCommand
  intro w i s rest hd h
  exact (step_of_issuesNext h).trans (issueWord_command hd _)

section
variable (j : Fin 64) (v : Byte) (s : State)

theorem hostReadByte_reply : (hostReadByte j s).reply = some (.byte (s.readByte j.val)) := rfl

theorem readByte_hostWriteByte (a : Nat) : (hostWriteByte j v s).readByte a = if a = j.val then v else s.readByte a := by
  rw [hostWriteByte, readByte_withReply]
  split
  next ha => rw [ha, readByte_writeByte_same]
  next ha => exact readByte_writeByte_ne s ha v

theorem readByte_hostWriteByte_same : (hostWriteByte j v s).readByte j.val = v := by
  rw [readByte_hostWriteByte, if_pos rfl]

/-- A block read after a host write, as the sum with the written byte in its place. -/
theorem memRead_hostWriteByte (n : Nat) :
    (hostWriteByte j v s).memRead 0 n =
      ((List.range n).map fun k => (if k = j.val then v else s.readByte k).toNat * 2 ^ (8 * k)).sum := by
  simp only [memRead_zero_eq_sum, readByte_hostWriteByte]

end

/-- Settles O10: one step lemma for each operation, and the laws of a byte write. -/
theorem hostOperationsDoTheirEffect : Obligations.HostOperationsDoTheirEffect := by
  unfold Obligations.HostOperationsDoTheirEffect
  intro s rest
  refine ⟨fun w i h hd => ?issue, step_of_statusRead, fun j hj h => step_of_hostRead hj h, fun j v hj h => ?write⟩
  case issue =>
    obtain ⟨t, ht, -⟩ := exec_completes_port i (s.withPort rest)
    exact ⟨t, ht, step_of_command h hd ht⟩
  case write =>
    refine ⟨_, step_of_hostWrite hj h, rfl, readByte_hostWriteByte_same _ v _, fun a ha => ?_⟩
    rw [readByte_hostWriteByte, if_neg ha, readByte_withPort]

/-! ### Two commands one behind the other (spec/20_memory.md section 5 (d)) -/

theorem step_step_of_commands {s : State} {rest : List Input} {w₁ w₂ : Word} {i₁ i₂ : Instr}
    (hd₁ : decode w₁ = .command i₁) (hd₂ : decode w₂ = .command i₂)
    (h : s.port = .access (.write 0x00 32 w₁.toNat) :: .access (.write 0x00 32 w₂.toNat) :: rest) :
    ∃ t u, exec i₁ (s.withPort (.access (.write 0x00 32 w₂.toNat) :: rest)) = .next t ∧
      step s = .next (t.withReply (.issued t.cc)) ∧
      exec i₂ ((t.withReply (.issued t.cc)).withPort rest) = .next u ∧
      step (t.withReply (.issued t.cc)) = .next (u.withReply (.issued u.cc)) ∧ u.port = rest := by
  obtain ⟨t, ht, hport⟩ := exec_completes_port i₁ (s.withPort (.access (.write 0x00 32 w₂.toNat) :: rest))
  obtain ⟨u, hu, hrest⟩ := exec_completes_port i₂ ((t.withReply (.issued t.cc)).withPort rest)
  exact ⟨t, u, ht, step_of_command h hd₁ ht, hu, step_of_command hport hd₂ hu, hrest⟩

theorem readReg_of_exec_add {rd ra rb : RegId} {s t : State} (h : exec (.add rd ra rb) s = .next t) :
    t.readReg rd = addValue (s.readReg ra) (s.readReg rb) :=
  readReg_of_complete_writeReg (addValue_lt _ _) ((exec_add rd ra rb s).symm.trans h)

/-- Settles O51: a command leaves the port alone, so the next one is taken from the state it left. -/
theorem commandsSeeEarlierCommands : Obligations.CommandsSeeEarlierCommands := by
  unfold Obligations.CommandsSeeEarlierCommands
  intro s rest
  refine ⟨fun w₁ w₂ i₁ i₂ hd₁ hd₂ h => ?_, fun rd ra rb rd' h => ?_⟩
  · obtain ⟨t, u, ht, hs, hu, hs', -⟩ := step_step_of_commands hd₁ hd₂ h
    exact ⟨t, u, ht, hs, hu, hs'⟩
  · obtain ⟨t, u, ht, hs, hu, hs', hrest⟩ := step_step_of_commands (decode_encode rfl) (decode_encode rfl) h
    refine ⟨_, _, hs, hs', hrest, ?_⟩
    rw [readReg_withReply, readReg_of_exec_add hu, readReg_withPort, readReg_withReply, readReg_of_exec_add ht,
      addValue_eq, addValue_eq, Nat.two_mul]
    rfl

/-! ### A command and a host operation, one behind the other (spec/20_memory.md section 5 (a), (b)) -/

/-- A step that issues a command's word executes the command, and leaves the port to the next step. -/
theorem step_of_encoded {s t : State} {rest : List Input} {i : Instr} (hwf : i.wellFormed = true)
    (h : s.port = .access (.write 0x00 32 (encode i).toNat) :: rest) (ht : exec i (s.withPort rest) = .next t) :
    step s = .next (t.withReply (.issued t.cc)) ∧ (t.withReply (.issued t.cc)).port = rest := by
  obtain ⟨-, hport, -⟩ := ownFields_exec ht
  exact ⟨step_of_command h (decode_encode hwf) ht, hport⟩

/-- A command right after a host write executes on the buffer with the byte written. -/
theorem step_step_of_hostWrite_command {s u : State} {rest : List Input} {j : Nat} (hj : j < 64) {v : Byte} {i : Instr}
    (hwf : i.wellFormed = true)
    (h : s.port = .access (.write (0x40 + j) 8 v.toNat) :: .access (.write 0x00 32 (encode i).toNat) :: rest)
    (hu : exec i (hostWriteByte ⟨j, hj⟩ v (s.withPort rest)) = .next u) :
    ∃ t, step s = .next t ∧ step t = .next (u.withReply (.issued u.cc)) :=
  ⟨_, step_of_hostWrite hj h, step_of_command rfl (decode_encode hwf) hu⟩

/-- An issued word leaves the flag, unless it is an `eq`, which leaves its comparison. -/
theorem eqFlag_of_issued {s t : State} {w : Word} {rest : List Input} (h : s.issuesNext w rest) (ht : step s = .next t) :
    (∀ ra rb, decode w = .command (.eq ra rb) → t.eqFlag = decide (s.readReg ra = s.readReg rb)) ∧
    ((∀ ra rb, decode w ≠ .command (.eq ra rb)) → t.eqFlag = s.eqFlag) := by
  refine ⟨fun ra rb hd => ?_, fun hne => ?_⟩
  · obtain rfl := Host.Outcome.next.inj ((step_of_command h hd (exec_eq ra rb _)).symm.trans ht)
    rfl
  · refine Decidable.byContradiction fun hchanged => ?_
    obtain ⟨v, rest', ra, rb, hp, hd⟩ := writer_of_eqFlag_ne ht (fun _ hp => by cases h.symm.trans hp) hchanged
    cases h.symm.trans hp
    exact hne ra rb (by rwa [BitVec.ofNat_toNat, BitVec.setWidth_eq] at hd)

theorem readByte_tobState (ra : RegId) (s : State) {j : Nat} (hj : j < 32) :
    (tobState ra s).readByte j = BitVec.ofNat 8 (s.readReg ra / 2 ^ (8 * j)) := by
  apply BitVec.eq_of_toNat_eq
  rw [toNat_readByte_tobState ra s hj, BitVec.toNat_ofNat]

/-- Settles O12: each second step is taken from the state the first left: the byte, the 32 bytes, the register or the code and
flag that it wrote, and nothing else. -/
theorem operationsSeeEarlierOnes : Obligations.OperationsSeeEarlierOnes := by
  unfold Obligations.OperationsSeeEarlierOnes
  intro s rest
  refine ⟨fun j v hj h => ?writeRead, fun j ra hj h => ?tobRead, fun j v rd hj h => ?writeFb, fun j v rd hj h => ?writeFbw,
    fun j v rd hj h => ?fbWrite, fun j v rd hj h => ?fbwWrite, fun w h => ?issueStatus⟩
  case writeRead =>
    refine ⟨_, _, step_of_hostWrite hj h, step_of_hostRead hj rfl, ?_, rfl⟩
    rw [hostReadByte_reply, readByte_withPort, readByte_hostWriteByte_same]
  case tobRead =>
    obtain ⟨ht, hport⟩ := step_of_encoded rfl h (exec_tob_eq_next ra _)
    refine ⟨_, _, ht, step_of_hostRead (Nat.lt_trans hj (by decide)) hport, ?_, rfl⟩
    rw [hostReadByte_reply, readByte_withPort, readByte_withReply, readByte_tobState ra _ hj, readReg_withPort]
  case writeFb =>
    have hj64 : j < 64 := Nat.lt_trans hj (by decide)
    obtain ⟨t, ht, hu⟩ := step_step_of_hostWrite_command hj64 rfl h (exec_fb_eq_next rd _)
    exact ⟨t, _, ht, hu, rfl, (readReg_fbState rd _).trans (memRead_hostWriteByte ⟨j, hj64⟩ v _ 32)⟩
  case writeFbw =>
    obtain ⟨t, ht, hu⟩ := step_step_of_hostWrite_command hj rfl h (exec_fbw_eq_next rd _)
    refine ⟨t, _, ht, hu, rfl, (readReg_fbwState rd _).trans ?_⟩
    rw [memRead_hostWriteByte]
    rfl
  case fbWrite =>
    obtain ⟨ht, hport⟩ := step_of_encoded rfl h (exec_fb_eq_next rd _)
    exact ⟨_, _, ht, step_of_hostWrite hj hport, rfl, readByte_hostWriteByte_same ⟨j, hj⟩ v _,
      (readReg_fbState rd _).trans (memRead_zero_eq_sum _ 32)⟩
  case fbwWrite =>
    obtain ⟨ht, hport⟩ := step_of_encoded rfl h (exec_fbw_eq_next rd _)
    refine ⟨_, _, ht, step_of_hostWrite hj hport, rfl, readByte_hostWriteByte_same ⟨j, hj⟩ v _, (readReg_fbwState rd _).trans ?_⟩
    rw [memRead_zero_eq_sum]
    rfl
  case issueStatus =>
    obtain ⟨t, ht, hport, -, hillegal, hlength⟩ := completionCodeIsAFunctionOfTheWord.1 w s _ h
    obtain ⟨heq, hother⟩ := eqFlag_of_issued h ht
    obtain ⟨-, hflag, -, hone, htwo, -⟩ := statusWordHasItsLayout.1 t
    refine ⟨t, _, t.statusWord, ht, step_of_statusRead hport, rfl, rfl, rfl, htwo.trans hillegal, hone.trans hlength,
      fun ra rb hd => ?_, fun hne => ?_⟩
    · simp only [hflag, heq ra rb hd, decide_eq_true_eq]
    · rw [hflag, hother hne]

end Sys2Proof.Machine
end
